-- ==== Sys2Proof/Word.lean ====
section
/-! DEFINITION. The word types of the block (00_scope.md R10) and its one addition (41_checksum.md R104). -/

namespace Sys2Proof

/-- `u8` of R10: one byte of a frame, of `TXOP`, of `TXARG`. -/
abbrev Byte := BitVec 8

/-- `u16` of R10: a register value, a field, a checksum. -/
abbrev U16 := BitVec 16

/-- A register index (R17: 64 indices). -/
abbrev Idx := BitVec 6

/-- The receive count `RXCNT` (R13: 6 bits). -/
abbrev Count := BitVec 6

/-- An access word of format `ACC` (R60: 24 bits). -/
abbrev AccWord := BitVec 24

/-- `a +16 b` of R10 and R104: addition modulo 65536, no flag. -/
def add16 (a b : U16) : U16 := a + b

end Sys2Proof
end

