-- ==== Sys2Proof/Config.lean ====
section
/-! DEFINITION. What the spec leaves open, as constants without a body: nothing can be proved of their values. -/

namespace Sys2Proof

/-- `REG_BASE` (92_eei_decisions.md P1, log 11): the host address of register index 0. No rule depends on it. -/
opaque Config.regBase : Nat

/-- The distance between two register indices in the host's address space (P1, log 11). No rule depends on it. -/
opaque Config.regStride : Nat

/-- Whether a failed transport write takes the Driver's mode or sleep change back: the source does not say
(46_host_software.md R167, 93_implementation_defined.md U16, log 15). -/
opaque Config.undoOnFailedWrite : Bool

end Sys2Proof
end

