-- ==== Sys2Proof/Syntax.lean ====
section
/-! DEFINITION. The block's instructions, one constructor per row of spec/opcode_table.json, and what a word can
be that is no row of it. -/

namespace Sys2Proof

/-- A Measurement (00_scope.md R12): twelve unsigned 16-bit values in frame order. Also the shape of the field bank
`FIELD[0..11]` (10_state.md R32). The names are positional (D30); the source's names are labels that no rule reads
(93_implementation_defined.md U1). -/
structure Measurement where
  /-- `pm1_0_std` -/
  f0 : U16
  /-- `pm2_5_std` -/
  f1 : U16
  /-- `pm10_std` -/
  f2 : U16
  /-- `pm1_0_atm` -/
  f3 : U16
  /-- `pm2_5_atm` -/
  f4 : U16
  /-- `field6`, of ambiguous identity (R126) -/
  f5 : U16
  /-- `part_0_3` -/
  f6 : U16
  /-- `part_0_5` -/
  f7 : U16
  /-- `part_1_0` -/
  f8 : U16
  /-- `part_2_5` -/
  f9 : U16
  /-- `part_5_0` -/
  f10 : U16
  /-- `part_10` -/
  f11 : U16
deriving DecidableEq, Repr

/-- One constructor per row of spec/opcode_table.json (30_encoding.md R62, R65, R67). -/
inductive Instr where
  /-- `RXCLR` (R88) -/
  | rxclr
  /-- `VALIDATE` (R132) -/
  | validate
  /-- `SOFTRST` (R89) -/
  | softrst
  /-- `PUSH b` (R87) -/
  | push (b : Byte)
  /-- `ENC.MODE a` (R144) -/
  | encMode (a : Byte)
  /-- `ENC.READ a` (R145) -/
  | encRead (a : Byte)
  /-- `ENC.SLEEP a` (R146) -/
  | encSleep (a : Byte)
  /-- `RD.STATUS` (R90) -/
  | rdStatus
  /-- `RD.RXCNT` (R91) -/
  | rdRxcnt
  /-- `RD.RXSUM` (R92) -/
  | rdRxsum
  /-- `RD.FIELD0` (R93) -/
  | rdField0
  /-- `RD.FIELD1` (R93) -/
  | rdField1
  /-- `RD.FIELD2` (R93) -/
  | rdField2
  /-- `RD.FIELD3` (R93) -/
  | rdField3
  /-- `RD.FIELD4` (R93) -/
  | rdField4
  /-- `RD.FIELD5` (R93) -/
  | rdField5
  /-- `RD.FIELD6` (R93) -/
  | rdField6
  /-- `RD.FIELD7` (R93) -/
  | rdField7
  /-- `RD.FIELD8` (R93) -/
  | rdField8
  /-- `RD.FIELD9` (R93) -/
  | rdField9
  /-- `RD.FIELD10` (R93) -/
  | rdField10
  /-- `RD.FIELD11` (R93) -/
  | rdField11
  /-- `RD.TXBYTE0` (R94) -/
  | rdTxbyte0
  /-- `RD.TXBYTE1` (R94) -/
  | rdTxbyte1
  /-- `RD.TXBYTE2` (R94) -/
  | rdTxbyte2
  /-- `RD.TXBYTE3` (R94) -/
  | rdTxbyte3
  /-- `RD.TXBYTE4` (R94) -/
  | rdTxbyte4
  /-- `RD.TXBYTE5` (R94) -/
  | rdTxbyte5
  /-- `RD.TXBYTE6` (R94) -/
  | rdTxbyte6
  /-- `CFRAME.ChangeMode` (R143, R65): argument and the two checksum bytes of the written frame -/
  | cframeChangeMode (a : Byte) (chk : U16)
  /-- `CFRAME.RequestReadPassive` (R143, R65) -/
  | cframeRequestReadPassive (a : Byte) (chk : U16)
  /-- `CFRAME.SetSleep` (R143, R65) -/
  | cframeSetSleep (a : Byte) (chk : U16)
  /-- `MFRAME` (R131, R67): length field, fields, trailer and checksum of a 32-byte frame -/
  | mframe (len : U16) (m : Measurement) (trailer chk : U16)
deriving DecidableEq, Repr

/-- The accesses that are no row of the table and that the block still performs (R61 lines 4, 9 and 15, log 9). -/
inductive IllegalAccess where
  /-- A write of `CMD` with a code that is none of the three (R99). -/
  | command (code : Byte)
  /-- A write of `TXREQ` with an opcode that is none of the three (R147). -/
  | opcode (op arg : Byte)
  /-- A read of a reserved or write-only index (R100). -/
  | read (idx : Idx)
  /-- A write of a reserved or read-only index (R100). -/
  | write (idx : Idx) (data : U16)
deriving DecidableEq, Repr

/-- Why bytes spell no access and no frame. -/
inductive DecodeError where
  /-- An access word with bit 22 set spells no access (R73). -/
  | bit22Set
  /-- No format of R59 has this many bytes (log 10). -/
  | unknownLength (bytes : Nat)
  /-- Seven bytes that are no command frame: a start byte, the opcode or `arg_hi` differs from R65, R66 (log 10). -/
  | notACommandFrame
  /-- Thirty-two bytes that do not begin with the start bytes of R67 (log 10). -/
  | notAMeasurementFrame
deriving DecidableEq, Repr

/-- What the decoder answers: total on any bytes. -/
inductive Decoded where
  /-- A row of the table. -/
  | op (i : Instr)
  /-- An access that is performed by setting a sticky flag. -/
  | illegal (x : IllegalAccess)
  /-- Nothing the machine can be given. -/
  | refused (e : DecodeError)
deriving DecidableEq, Repr

end Sys2Proof
end

