-- ==== Sys2Proof/Machine/Operands.lean ====
section
/-! DEFINITION. Operand assembly (30_encoding.md R71): the fields of an access word, the two halves of a 16-bit
value, the constants of the hardware (00_scope.md R5), the register indices (10_state.md R17), and the selection of a
field by its number. -/

namespace Sys2Proof

/-! ### Constants (R5) -/

/-- First start byte of every frame. -/
def start0 : Byte := 0x42#8
/-- Second start byte of every frame. -/
def start1 : Byte := 0x4D#8
/-- ChangeMode (R66). -/
def opChangeMode : Byte := 0xE1#8
/-- RequestReadPassive (R66). -/
def opRequestRead : Byte := 0xE2#8
/-- SetSleep (R66). -/
def opSetSleep : Byte := 0xE4#8
/-- First argument byte of every command frame (R66). -/
def argHi : Byte := 0x00#8
/-- Length of a measurement frame. -/
def mframeLen : Nat := 32
/-- Bytes of a measurement frame that its checksum covers (R107). -/
def msumLen : Nat := 30

/-- Command codes of `CMD` (R63). -/
def codeRxclr : Byte := 0x01#8
/-- See `codeRxclr`. -/
def codeValidate : Byte := 0x02#8
/-- See `codeRxclr`. -/
def codeSoftrst : Byte := 0x03#8

/-! ### Register indices (R17) -/

def idxCmd : Idx := 0x00#6
def idxStatus : Idx := 0x01#6
def idxRxdata : Idx := 0x02#6
def idxRxcnt : Idx := 0x03#6
def idxRxsum : Idx := 0x04#6
def idxTxreq : Idx := 0x05#6
/-- `FIELD0`; `FIELDk` is at this index plus `k`. -/
def idxField0 : Idx := 0x10#6
/-- `TXBYTE0`; `TXBYTEi` is at this index plus `i`. -/
def idxTxbyte0 : Idx := 0x20#6

/-! ### Halves and wholes (R71 items 1, 2 and 6) -/

/-- `hi8(v)`. -/
def hi8 (v : U16) : Byte := v.extractLsb' 8 8
/-- `lo8(v)`. -/
def lo8 (v : U16) : Byte := v.extractLsb' 0 8
/-- `be16(hi, lo)`: the high byte first, no sign, no scale (43_field_extract.md R122). -/
def be16 (hi lo : Byte) : U16 := hi ++ lo
/-- `zext_16` of a byte. -/
def zext16 (b : Byte) : U16 := b.setWidth 16

/-! ### Fields of an access word (R60) -/

/-- `W`: true for a write. -/
def accW (w : AccWord) : Bool := w.getLsbD 23
/-- Bit 22, which must be 0. -/
def accBit22 (w : AccWord) : Bool := w.getLsbD 22
/-- `IDX`. -/
def accIdx (w : AccWord) : Idx := w.extractLsb' 16 6
/-- `DATA`. -/
def accData (w : AccWord) : U16 := w.extractLsb' 0 16

/-- The access word that spells an access (R60). -/
def accWord (wr : Bool) (idx : Idx) (data : U16) : AccWord :=
  (BitVec.ofBool wr ++ 0#1 ++ idx ++ data : BitVec 24)

/-- An access word as its three bytes, most significant first, as the listings of R60 give it (log 8). -/
def accBytes (w : AccWord) : List Byte :=
  [w.extractLsb' 16 8, w.extractLsb' 8 8, w.extractLsb' 0 8]

/-! ### Bytes of a frame -/

/-- `B[i]`, for a byte array held as a list (R10); 0 past its end, which no rule reads. -/
def byteAt (B : List Byte) (i : Nat) : Byte := B.getD i 0#8

/-- `B[a..b)` (R10). -/
def slice (B : List Byte) (a b : Nat) : List Byte := (B.drop a).take (b - a)

/-- The `n` bytes of a number, most significant first: bit 0 of the number is bit 0 of the last byte (log 8). -/
def bytesBE (n w : Nat) : List Byte :=
  (List.range n).map fun i => BitVec.ofNat 8 (w >>> (8 * (n - 1 - i)))

/-! ### The field bank by number (R32) -/

/-- `FIELD[k]`. -/
def Measurement.get (m : Measurement) (k : Fin 12) : U16 :=
  match k with
  | 0 => m.f0
  | 1 => m.f1
  | 2 => m.f2
  | 3 => m.f3
  | 4 => m.f4
  | 5 => m.f5
  | 6 => m.f6
  | 7 => m.f7
  | 8 => m.f8
  | 9 => m.f9
  | 10 => m.f10
  | 11 => m.f11

/-- Twelve values by number. -/
def Measurement.ofFn (f : Fin 12 → U16) : Measurement :=
  { f0 := f 0, f1 := f 1, f2 := f 2, f3 := f 3, f4 := f 4, f5 := f 5
    f6 := f 6, f7 := f 7, f8 := f 8, f9 := f 9, f10 := f 10, f11 := f 11 }

/-- All twelve `0x0000` (R38). -/
def Measurement.zero : Measurement := Measurement.ofFn fun _ => 0#16

/-- The twelve values in frame order, as `RDFIELDS` reads them (R78). -/
def Measurement.toList (m : Measurement) : List U16 :=
  [m.f0, m.f1, m.f2, m.f3, m.f4, m.f5, m.f6, m.f7, m.f8, m.f9, m.f10, m.f11]

/-- The host address of a register index (92_eei_decisions.md P1, log 11). -/
def busAddress (idx : Idx) : Nat := Config.regBase + Config.regStride * idx.toNat

end Sys2Proof
end

