-- ==== Sys2Proof/Machine/Checksum.lean ====
section
/-! DEFINITION. The checksum unit (41_checksum.md): a sum of bytes modulo 65536, used in both directions (R111). -/

namespace Sys2Proof

/-- `sum16` (R102): each byte as its raw value, the additions wrap at 16 bits. -/
def sum16 (B : List Byte) : U16 := B.foldl (fun s b => add16 s (zext16 b)) 0#16

/-- `computed(B)` of R106: the sum of `B[0..30)`. -/
def computed (B : List Byte) : U16 := sum16 (slice B 0 msumLen)

/-- `received(B)` of R106: the big-endian value at `B[30..32)`. -/
def received (B : List Byte) : U16 := be16 (byteAt B 30) (byteAt B 31)

/-- `chk_ok` (R106), on all 16 bits. -/
def chkOk (B : List Byte) : Bool := computed B == received B

end Sys2Proof
end

