-- ==== Sys2Proof/Machine/Extract.lean ====
section
/-! DEFINITION. The big-endian field extractor (43_field_extract.md) and the reference encoder for tests (R130). -/

namespace Sys2Proof

/-- `decode(P)` of R123: the twelve fields of a 24-byte payload. -/
def decodePayload (P : List Byte) : Measurement :=
  Measurement.ofFn fun k => be16 (byteAt P (2 * k.val)) (byteAt P (2 * k.val + 1))

/-- `extract(B)` of R123: the same fields from the 32-byte frame. -/
def extract (B : List Byte) : Measurement :=
  Measurement.ofFn fun k => be16 (byteAt B (4 + 2 * k.val)) (byteAt B (5 + 2 * k.val))

/-- A 16-bit value on the wire: `hi8`, then `lo8` (R42, R71 item 2). -/
def be16Bytes (v : U16) : List Byte := [hi8 v, lo8 v]

/-- The 24 payload bytes of a Measurement, one field per two-byte slot in frame order (R70, R127). -/
def payloadBytes (m : Measurement) : List Byte := m.toList.flatMap be16Bytes

/-- The thirty bytes of a measurement frame before its checksum (R67). -/
def mframeBody (len : U16) (m : Measurement) (trailer : U16) : List Byte :=
  [start0, start1] ++ be16Bytes len ++ payloadBytes m ++ be16Bytes trailer

/-- The thirty-two bytes of a measurement frame, whatever its checksum field holds (R67). -/
def mframeBytes (len : U16) (m : Measurement) (trailer chk : U16) : List Byte :=
  mframeBody len m trailer ++ be16Bytes chk

/-- `frame(M, L, t0, t1)`, the reference encoder (R130), with `trailer` for the two bytes `t0, t1`. -/
def referenceFrame (m : Measurement) (len trailer : U16) : List Byte :=
  mframeBytes len m trailer (sum16 (mframeBody len m trailer))

end Sys2Proof
end

