-- ==== Sys2Proof/Machine/FrameStart.lean ====
section
/-! DEFINITION. The frame-start detector (42_frame_start.md): a comparison at offsets 0 and 1, not a search (R115). -/

namespace Sys2Proof

/-- `sof_ok` (R114). -/
def sofOk (b0 b1 : Byte) : Bool := b0 == start0 && b1 == start1

end Sys2Proof
end

