-- ==== Sys2Proof/Machine/CommandFrame.lean ====
section
/-! DEFINITION. The pure function of the command encoder (45_command_encode.md R143) and the pure function of the
receive path (44_validate.md R131). -/

namespace Sys2Proof

/-- The five bytes of a command frame that its checksum covers (R65, R110). -/
def cframeBody (op a : Byte) : List Byte := [start0, start1, op, argHi, a]

/-- The seven bytes of a command frame, whatever its checksum field holds (R65). -/
def cframeBytes (op a : Byte) (chk : U16) : List Byte := cframeBody op a ++ be16Bytes chk

/-- `encode_command(op, a)` (R143): no failure condition, `a` passed through (R152). -/
def encodeCommand (op a : Byte) : List Byte := cframeBytes op a (sum16 (cframeBody op a))

/-- The two protocol errors of the codec (R131, 60_exceptions.md R178, R179). -/
inductive ProtocolError where
  | startByteMismatch
  | checksumMismatch
deriving DecidableEq, Repr

/-- The result of `validate_and_strip`: the 24-byte payload or an error (R131). -/
inductive Stripped where
  | ok (payload : List Byte)
  | err (e : ProtocolError)
deriving DecidableEq, Repr

/-- `validate_and_strip(B)` (R131), on 32 bytes: start bytes, then checksum, then `B[4..28)`. -/
def validateAndStrip (B : List Byte) : Stripped :=
  if !sofOk (byteAt B 0) (byteAt B 1) then .err .startByteMismatch
  else if !chkOk B then .err .checksumMismatch
  else .ok (slice B 4 28)

end Sys2Proof
end

