-- ==== Sys2Proof/WellFormed.lean ====
section
/-! DEFINITION. Which terms of Instr are written as the spec says they are. The types already hold an operand of an
access word to its eight bits, so the checks left are the invariants of the two wire frames (30_encoding.md R65, R67):
the checksum bytes are the sum of the bytes before them. A frame that breaks its invariant still decodes: an inbound
one is what `CHECKSUM_MISMATCH` is for (44_validate.md R131), an outbound one is a word the block never emits (log 7). -/

namespace Sys2Proof

/-- The checksum invariant of a written command frame (R65). -/
def cframeWf (op a : Byte) (chk : U16) : Bool := chk == sum16 (cframeBody op a)

/-- The checksum invariant of a measurement frame (R67). -/
def mframeWf (len : U16) (m : Measurement) (trailer chk : U16) : Bool :=
  chk == sum16 (mframeBody len m trailer)

/-- A well-formed instruction. -/
def Instr.wellFormed : Instr → Bool
  | .rxclr => true
  | .validate => true
  | .softrst => true
  | .push _ => true
  | .encMode _ => true
  | .encRead _ => true
  | .encSleep _ => true
  | .rdStatus => true
  | .rdRxcnt => true
  | .rdRxsum => true
  | .rdField0 => true
  | .rdField1 => true
  | .rdField2 => true
  | .rdField3 => true
  | .rdField4 => true
  | .rdField5 => true
  | .rdField6 => true
  | .rdField7 => true
  | .rdField8 => true
  | .rdField9 => true
  | .rdField10 => true
  | .rdField11 => true
  | .rdTxbyte0 => true
  | .rdTxbyte1 => true
  | .rdTxbyte2 => true
  | .rdTxbyte3 => true
  | .rdTxbyte4 => true
  | .rdTxbyte5 => true
  | .rdTxbyte6 => true
  | .cframeChangeMode a chk => cframeWf opChangeMode a chk
  | .cframeRequestReadPassive a chk => cframeWf opRequestRead a chk
  | .cframeSetSleep a chk => cframeWf opSetSleep a chk
  | .mframe len m trailer chk => mframeWf len m trailer chk

end Sys2Proof
end

