-- ==== Sys2Proof/Decode.lean ====
section
/-! DEFINITION. The decoder (30_encoding.md R61), total on any bytes, and the encoder from the same tables (R62, R65,
R67). An access is three bytes, most significant first (R60); a frame is its wire bytes, byte 0 first (log 8). -/

namespace Sys2Proof

/-- A read of index `idx`: lines 10 to 15 of R61. -/
def decodeRead (idx : Idx) : Decoded :=
  if idx = idxStatus then .op .rdStatus
  else if idx = idxRxcnt then .op .rdRxcnt
  else if idx = idxRxsum then .op .rdRxsum
  else if idx = idxField0 + 0#6 then .op .rdField0
  else if idx = idxField0 + 1#6 then .op .rdField1
  else if idx = idxField0 + 2#6 then .op .rdField2
  else if idx = idxField0 + 3#6 then .op .rdField3
  else if idx = idxField0 + 4#6 then .op .rdField4
  else if idx = idxField0 + 5#6 then .op .rdField5
  else if idx = idxField0 + 6#6 then .op .rdField6
  else if idx = idxField0 + 7#6 then .op .rdField7
  else if idx = idxField0 + 8#6 then .op .rdField8
  else if idx = idxField0 + 9#6 then .op .rdField9
  else if idx = idxField0 + 10#6 then .op .rdField10
  else if idx = idxField0 + 11#6 then .op .rdField11
  else if idx = idxTxbyte0 + 0#6 then .op .rdTxbyte0
  else if idx = idxTxbyte0 + 1#6 then .op .rdTxbyte1
  else if idx = idxTxbyte0 + 2#6 then .op .rdTxbyte2
  else if idx = idxTxbyte0 + 3#6 then .op .rdTxbyte3
  else if idx = idxTxbyte0 + 4#6 then .op .rdTxbyte4
  else if idx = idxTxbyte0 + 5#6 then .op .rdTxbyte5
  else if idx = idxTxbyte0 + 6#6 then .op .rdTxbyte6
  else .illegal (.read idx)

/-- A write of `v` to index `idx`: lines 1 to 9 and 15 of R61. Bits 15:8 of a `CMD` or `RXDATA` write are ignored
(R37, R63, R71 item 4). -/
def decodeWrite (idx : Idx) (v : U16) : Decoded :=
  if idx = idxCmd then
    if lo8 v = codeRxclr then .op .rxclr
    else if lo8 v = codeValidate then .op .validate
    else if lo8 v = codeSoftrst then .op .softrst
    else .illegal (.command (lo8 v))
  else if idx = idxRxdata then .op (.push (lo8 v))
  else if idx = idxTxreq then
    if hi8 v = opChangeMode then .op (.encMode (lo8 v))
    else if hi8 v = opRequestRead then .op (.encRead (lo8 v))
    else if hi8 v = opSetSleep then .op (.encSleep (lo8 v))
    else .illegal (.opcode (hi8 v) (lo8 v))
  else .illegal (.write idx v)

/-- An access word (R60, R61); bit 22 set spells no access (R73). -/
def decodeAcc (w : AccWord) : Decoded :=
  if accBit22 w = true then .refused .bit22Set
  else if accW w = true then decodeWrite (accIdx w) (accData w)
  else decodeRead (accIdx w)

/-- Seven bytes as a command frame (R65, R66). The checksum bytes are operands, checked by `Instr.wellFormed`. -/
def decodeCframe (B : List Byte) : Decoded :=
  let a := byteAt B 4
  let chk := be16 (byteAt B 5) (byteAt B 6)
  if byteAt B 0 = start0 ∧ byteAt B 1 = start1 ∧ byteAt B 3 = argHi then
    if byteAt B 2 = opChangeMode then .op (.cframeChangeMode a chk)
    else if byteAt B 2 = opRequestRead then .op (.cframeRequestReadPassive a chk)
    else if byteAt B 2 = opSetSleep then .op (.cframeSetSleep a chk)
    else .refused .notACommandFrame
  else .refused .notACommandFrame

/-- Thirty-two bytes as a measurement frame (R67). -/
def decodeMframe (B : List Byte) : Decoded :=
  if byteAt B 0 = start0 ∧ byteAt B 1 = start1 then
    .op (.mframe (be16 (byteAt B 2) (byteAt B 3)) (extract B) (be16 (byteAt B 28) (byteAt B 29)) (received B))
  else .refused .notAMeasurementFrame

/-- The decoder: the format is told by the length, which is fixed for each (R59, R76). -/
def decode (B : List Byte) : Decoded :=
  if B.length = 3 then decodeAcc (byteAt B 0 ++ byteAt B 1 ++ byteAt B 2)
  else if B.length = 7 then decodeCframe B
  else if B.length = 32 then decodeMframe B
  else .refused (.unknownLength B.length)

/-- The match and mask of each access-word row (R62); none for the rows that are wire frames. -/
def accRow : Instr → Option (AccWord × AccWord)
  | .rxclr => some (0x800001#24, 0xFF00FF#24)
  | .validate => some (0x800002#24, 0xFF00FF#24)
  | .softrst => some (0x800003#24, 0xFF00FF#24)
  | .push _ => some (0x820000#24, 0xFF0000#24)
  | .encMode _ => some (0x85E100#24, 0xFFFF00#24)
  | .encRead _ => some (0x85E200#24, 0xFFFF00#24)
  | .encSleep _ => some (0x85E400#24, 0xFFFF00#24)
  | .rdStatus => some (0x010000#24, 0xFF0000#24)
  | .rdRxcnt => some (0x030000#24, 0xFF0000#24)
  | .rdRxsum => some (0x040000#24, 0xFF0000#24)
  | .rdField0 => some (0x100000#24, 0xFF0000#24)
  | .rdField1 => some (0x110000#24, 0xFF0000#24)
  | .rdField2 => some (0x120000#24, 0xFF0000#24)
  | .rdField3 => some (0x130000#24, 0xFF0000#24)
  | .rdField4 => some (0x140000#24, 0xFF0000#24)
  | .rdField5 => some (0x150000#24, 0xFF0000#24)
  | .rdField6 => some (0x160000#24, 0xFF0000#24)
  | .rdField7 => some (0x170000#24, 0xFF0000#24)
  | .rdField8 => some (0x180000#24, 0xFF0000#24)
  | .rdField9 => some (0x190000#24, 0xFF0000#24)
  | .rdField10 => some (0x1A0000#24, 0xFF0000#24)
  | .rdField11 => some (0x1B0000#24, 0xFF0000#24)
  | .rdTxbyte0 => some (0x200000#24, 0xFF0000#24)
  | .rdTxbyte1 => some (0x210000#24, 0xFF0000#24)
  | .rdTxbyte2 => some (0x220000#24, 0xFF0000#24)
  | .rdTxbyte3 => some (0x230000#24, 0xFF0000#24)
  | .rdTxbyte4 => some (0x240000#24, 0xFF0000#24)
  | .rdTxbyte5 => some (0x250000#24, 0xFF0000#24)
  | .rdTxbyte6 => some (0x260000#24, 0xFF0000#24)
  | .cframeChangeMode _ _ => none
  | .cframeRequestReadPassive _ _ => none
  | .cframeSetSleep _ _ => none
  | .mframe _ _ _ _ => none

/-- The bytes of an instruction. Ignored bits are written 0, the canonical form of R60 (log 17). -/
def encode : Instr → List Byte
  | .rxclr => accBytes (accWord true idxCmd (zext16 codeRxclr))
  | .validate => accBytes (accWord true idxCmd (zext16 codeValidate))
  | .softrst => accBytes (accWord true idxCmd (zext16 codeSoftrst))
  | .push b => accBytes (accWord true idxRxdata (zext16 b))
  | .encMode a => accBytes (accWord true idxTxreq (opChangeMode ++ a))
  | .encRead a => accBytes (accWord true idxTxreq (opRequestRead ++ a))
  | .encSleep a => accBytes (accWord true idxTxreq (opSetSleep ++ a))
  | .rdStatus => accBytes (accWord false idxStatus 0#16)
  | .rdRxcnt => accBytes (accWord false idxRxcnt 0#16)
  | .rdRxsum => accBytes (accWord false idxRxsum 0#16)
  | .rdField0 => accBytes (accWord false (idxField0 + 0#6) 0#16)
  | .rdField1 => accBytes (accWord false (idxField0 + 1#6) 0#16)
  | .rdField2 => accBytes (accWord false (idxField0 + 2#6) 0#16)
  | .rdField3 => accBytes (accWord false (idxField0 + 3#6) 0#16)
  | .rdField4 => accBytes (accWord false (idxField0 + 4#6) 0#16)
  | .rdField5 => accBytes (accWord false (idxField0 + 5#6) 0#16)
  | .rdField6 => accBytes (accWord false (idxField0 + 6#6) 0#16)
  | .rdField7 => accBytes (accWord false (idxField0 + 7#6) 0#16)
  | .rdField8 => accBytes (accWord false (idxField0 + 8#6) 0#16)
  | .rdField9 => accBytes (accWord false (idxField0 + 9#6) 0#16)
  | .rdField10 => accBytes (accWord false (idxField0 + 10#6) 0#16)
  | .rdField11 => accBytes (accWord false (idxField0 + 11#6) 0#16)
  | .rdTxbyte0 => accBytes (accWord false (idxTxbyte0 + 0#6) 0#16)
  | .rdTxbyte1 => accBytes (accWord false (idxTxbyte0 + 1#6) 0#16)
  | .rdTxbyte2 => accBytes (accWord false (idxTxbyte0 + 2#6) 0#16)
  | .rdTxbyte3 => accBytes (accWord false (idxTxbyte0 + 3#6) 0#16)
  | .rdTxbyte4 => accBytes (accWord false (idxTxbyte0 + 4#6) 0#16)
  | .rdTxbyte5 => accBytes (accWord false (idxTxbyte0 + 5#6) 0#16)
  | .rdTxbyte6 => accBytes (accWord false (idxTxbyte0 + 6#6) 0#16)
  | .cframeChangeMode a chk => cframeBytes opChangeMode a chk
  | .cframeRequestReadPassive a chk => cframeBytes opRequestRead a chk
  | .cframeSetSleep a chk => cframeBytes opSetSleep a chk
  | .mframe len m trailer chk => mframeBytes len m trailer chk

/-- How many bytes the format of a row has, from the number of bits the table gives it (R59). -/
def formatBytes (nbits : Nat) : Nat := if nbits ≤ 24 then 3 else if nbits ≤ 56 then 7 else 32

/-- The bytes of a table row's word: one number with bit 0 its least significant bit, so that the byte at the left of
a pattern is the first (log 8). -/
def tableBytes (nbits w : Nat) : List Byte := bytesBE (formatBytes nbits) w

/-- The instruction the decoder reads from a table row's word, none where it reads no row. -/
def decodeTableWord (nbits w : Nat) : Option Instr :=
  match decode (tableBytes nbits w) with
  | .op i => some i
  | .illegal _ => none
  | .refused _ => none

end Sys2Proof
end

