-- ==== Sys2Proof/Machine/State.lean ====
section
/-! DEFINITION. The state of the block (10_state.md R13), the host's pending accesses, and the reasons a step can
stop. -/

namespace Sys2Proof.Machine

/-- The codes of `RESULT` (10_state.md R20). Codes 5 to 7 are never produced and are no values of the type (U9). -/
inductive Result where
  /-- 0 `NONE`: no `VALIDATE` since the last reset or `RXCLR`. -/
  | none
  /-- 1 `OK` -/
  | ok
  /-- 2 `START_MISMATCH` -/
  | startMismatch
  /-- 3 `CHECKSUM_MISMATCH` -/
  | checksumMismatch
  /-- 4 `INCOMPLETE` -/
  | incomplete
deriving DecidableEq, Repr

/-- The six error conditions of the block (60_exceptions.md R177: "There is no other"). -/
inductive ErrorCause where
  | startByteMismatch
  | checksumMismatch
  | incomplete
  | receiveOverrun
  | illegalCommand
  | illegalAccess
deriving DecidableEq, Repr

/-- What reaches the block from outside (00_scope.md R7, log 1): an access or the first access of a wire frame, as the
bytes that spell it; the read of the outcome that ends a reception (30_encoding.md R77, log 6); the hard reset
(70_reset_and_hazards.md R195, log 14). -/
inductive HostEvent where
  | issue (bytes : List Byte)
  /-- `RD.STATUS`, after which the host reads the twelve fields if the value it got says `OK`. -/
  | readOutcome
  | hardReset
deriving DecidableEq, Repr

/-- The receive buffer: listed (offset, byte) pairs. `Memory.wf` in Machine/Ops.lean is its canonical form. -/
abbrev Memory := List Host.Cell

/-- The complete state (R13), and the model's own two fields `pending` (log 1) and `returned` (log 2). -/
structure State where
  /-- `RXBUF[0..31]` (R34) -/
  rxbuf : Memory
  /-- `RXCNT` (R16, R29) -/
  rxcnt : Count
  /-- `RESULT` (R20) -/
  result : Result
  /-- `FVALID` (R21) -/
  fvalid : Bool
  /-- `FIELD[0..11]` (R32) -/
  fields : Measurement
  /-- `RXOVR` (R24) -/
  rxovr : Bool
  /-- `TXOP` (R35) -/
  txop : Byte
  /-- `TXARG` (R35) -/
  txarg : Byte
  /-- `TXVALID` (R25) -/
  txvalid : Bool
  /-- `ILLCMD` (R26) -/
  illcmd : Bool
  /-- `BADACC` (R27) -/
  badacc : Bool
  /-- MODEL'S OWN: what the host has issued and the block has not performed, oldest first (log 1). -/
  pending : List HostEvent
  /-- MODEL'S OWN: the value the last access returned, none after a write (00_scope.md R8, log 2). -/
  returned : Option U16
deriving DecidableEq, Repr

/-- The state after reset (R38): every stored value as the table gives it. The buffer is unspecified and
unobservable (R197); the model lists nothing in it (log 4). -/
def State.reset : State :=
  { rxbuf := []
    rxcnt := 0#6
    result := .none
    fvalid := false
    fields := { f0 := 0#16, f1 := 0#16, f2 := 0#16, f3 := 0#16, f4 := 0#16, f5 := 0#16
                f6 := 0#16, f7 := 0#16, f8 := 0#16, f9 := 0#16, f10 := 0#16, f11 := 0#16 }
    rxovr := false
    txop := 0x00#8
    txarg := 0x00#8
    txvalid := false
    illcmd := false
    badacc := false
    pending := []
    returned := none }

/-- There is no fault: "No access is undefined, none hangs, none is refused by the block" (40_access_and_buffer.md
R101), and an error never stops the block (60_exceptions.md R186). The type has no constructor, so that no step can
answer one (log 13). -/
inductive Fault
deriving DecidableEq, Repr

/-- Why a step stops without a next state. -/
inductive Refusal where
  /-- An instruction without a meaning. Raised by no arm: every row of the table has its meaning. Safe. -/
  | notModelled (mnemonic : String)
  /-- The bytes the host issued spell no access and no frame, by name. Raised by `step` alone, before the machine:
  for an access word with bit 22 set it is the refusal the spec asks of a trace decoder (30_encoding.md R73, U11).
  Safe: the machine is given nothing (log 10). -/
  | notAnAccess (why : DecodeError)
deriving DecidableEq, Repr

end Sys2Proof.Machine
end

