-- ==== Sys2Proof/Machine/Ops.lean ====
section
/-! DEFINITION. The named operations over the receive buffer and the registers, the one operation that takes an error
(60_exceptions.md R185), and the ways an error is cleared (R187). -/

namespace Sys2Proof.Machine

/-! ### The receive buffer as memory -/

/-- What an unlisted offset reads as. The spec leaves the byte unspecified and no rule reads it (10_state.md R34,
70_reset_and_hazards.md R197); DESIGN CHOICE, log 4. -/
def Memory.unlisted : Byte := 0x00#8

/-- One byte of the buffer. -/
def Memory.read (m : Memory) (off : Nat) : Byte :=
  match m with
  | [] => Memory.unlisted
  | c :: rest => if c.1 = off then c.2 else Memory.read rest off

/-- The pairs of all offsets but one. -/
def Memory.forget (m : Memory) (off : Nat) : Memory :=
  match m with
  | [] => []
  | c :: rest => if c.1 = off then Memory.forget rest off else c :: Memory.forget rest off

/-- A pair put before the first larger offset. -/
def Memory.place (m : Memory) (c : Host.Cell) : Memory :=
  match m with
  | [] => [c]
  | d :: rest => if c.1 < d.1 then c :: d :: rest else d :: Memory.place rest c

/-- `MemWrite(off, 1, b)` (00_scope.md R11), keeping the canonical form: the value an unlisted offset reads as is not
listed. -/
def Memory.write (m : Memory) (off : Nat) (b : Byte) : Memory :=
  if b = Memory.unlisted then Memory.forget m off else Memory.place (Memory.forget m off) (off, b)

/-- Offsets strictly rising from `low`, each a buffer offset (20_memory.md R41), no entry equal to the unlisted
value. -/
def Memory.wfFrom (low : Nat) (m : Memory) : Bool :=
  match m with
  | [] => true
  | c :: rest =>
    decide (low ≤ c.1) && decide (c.1 < mframeLen) && decide (c.2 ≠ Memory.unlisted) && Memory.wfFrom (c.1 + 1) rest

/-- The canonical form of the receive buffer. -/
def Memory.wf (m : Memory) : Bool := Memory.wfFrom 0 m

/-- `RXBUF[i]`. -/
def rxByte (s : State) (i : Nat) : Byte := Memory.read s.rxbuf i

/-- `MemRead(off, 2)`, big-endian (00_scope.md R11). -/
def memRead2 (s : State) (off : Nat) : U16 := be16 (rxByte s off) (rxByte s (off + 1))

/-- `RXBUF[0..n)`. -/
def rxBytes (s : State) (n : Nat) : List Byte := (List.range n).map (rxByte s)

/-! ### Updates of the registers, each by name -/

/-- What this access returns to the host: a value for a read, none for a write (00_scope.md R8, log 2). -/
def State.returning (v : Option U16) (s : State) : State := { s with returned := v }

/-- The host's queue after its oldest entry is taken (log 1). -/
def State.withPending (q : List HostEvent) (s : State) : State := { s with pending := q }

/-- The host goes on with a sequence of accesses before it turns to anything else it has issued (log 6). -/
def State.following (es : List HostEvent) (s : State) : State := { s with pending := es ++ s.pending }

/-- The then-branch of `PUSH` (R87): the byte at offset `RXCNT`, and the count up by one. -/
def State.storeByte (b : Byte) (s : State) : State :=
  { s with rxbuf := Memory.write s.rxbuf s.rxcnt.toNat b, rxcnt := s.rxcnt + 1#6 }

/-- The success branch of `VALIDATE` (R132, R134): all twelve fields, `FVALID`, `RESULT`, at once. -/
def State.latch (m : Measurement) (s : State) : State :=
  { s with fields := m, fvalid := true, result := .ok }

/-- The state a legal `ENC.*` writes (R148). -/
def State.loadTx (op a : Byte) (s : State) : State := { s with txop := op, txarg := a, txvalid := true }

/-! ### Taking an error -/

/-- TAKING AN ERROR (60_exceptions.md R185): the code is written to `RESULT` or the sticky flag is set, and nothing
else happens: nothing is saved, no mode changes, no control goes anywhere. -/
def report (c : ErrorCause) (s : State) : State :=
  match c with
  | .startByteMismatch => { s with result := .startMismatch }
  | .checksumMismatch => { s with result := .checksumMismatch }
  | .incomplete => { s with result := .incomplete }
  | .receiveOverrun => { s with rxovr := true }
  | .illegalCommand => { s with illcmd := true }
  | .illegalAccess => { s with badacc := true }

/-- `RXCLR` (R88), which clears a `RESULT` error and `RXOVR` (R187). It does not erase the buffer (log 5). -/
def clearRx (s : State) : State := { s with rxcnt := 0#6, result := .none, rxovr := false }

/-- RESET, by `SOFTRST` (R89) or by the hard reset input (R195): the same effect, every piece of the block's state at
its reset value. The host's queue is not the block's and stays; nothing is returned. -/
def resetBlock (s : State) : State := { State.reset with pending := s.pending }

/-- What the block does with an access that is no row of the table (R99, R100, R147): it reports, and a read returns
`0x0000`. -/
def performIllegal (x : IllegalAccess) (s : State) : State :=
  match x with
  | .command _ => State.returning none (report .illegalCommand s)
  | .opcode _ _ => State.returning none (report .illegalCommand s)
  | .read _ => State.returning (some 0x0000#16) (report .illegalAccess s)
  | .write _ _ => State.returning none (report .illegalAccess s)

/-! ### The operations that carry arguments -/

/-- `PUSH b` (R87). -/
def pushByte (b : Byte) (s : State) : State :=
  if s.rxcnt.toNat < mframeLen then State.storeByte b s else report .receiveOverrun s

/-- `LOADBYTES` (30_encoding.md R78): `RXCLR`, then one `PUSH` a byte; with thirty-two bytes it is `LOADFRAME`. -/
def loadBytes (B : List Byte) (s : State) : State := B.foldl (fun t b => pushByte b t) (clearRx s)

/-- The three checks of `VALIDATE` in their order and the latching of the fields (R132, R133). -/
def validateBuffer (s : State) : State :=
  if s.rxcnt ≠ 32#6 then report .incomplete s
  else if !sofOk (rxByte s 0) (rxByte s 1) then report .startByteMismatch s
  else if sum16 (rxBytes s 30) ≠ be16 (rxByte s 30) (rxByte s 31) then report .checksumMismatch s
  else State.latch (Measurement.ofFn fun k => memRead2 s (4 + 2 * k.val)) s

/-! ### Taking the host's next event -/

/-- The oldest event the host has issued, and the state without it. -/
def fetch (s : State) : Option (HostEvent × State) :=
  match s.pending with
  | [] => none
  | e :: rest => some (e, State.withPending rest s)

/-- The host issues an event: it is performed after every event issued before it (20_memory.md R54). -/
def State.issue (e : HostEvent) (s : State) : State := State.withPending (s.pending ++ [e]) s

end Sys2Proof.Machine
end

