-- ==== Sys2Proof/Machine/Flags.lean ====
section
/-! DEFINITION. The STATUS word and the views (10_state.md R15, R19): values the host can read that are computed from
the state and not stored. -/

namespace Sys2Proof.Machine

/-- The numeric code of an outcome (R20). -/
def Result.code (r : Result) : BitVec 3 :=
  match r with
  | .none => 0#3
  | .ok => 1#3
  | .startMismatch => 2#3
  | .checksumMismatch => 3#3
  | .incomplete => 4#3

/-- The outcome a code stands for; 5, 6 and 7 stand for none (U9). -/
def Result.ofCode (c : BitVec 3) : Option Result :=
  if c = 0#3 then some .none
  else if c = 1#3 then some .ok
  else if c = 2#3 then some .startMismatch
  else if c = 3#3 then some .checksumMismatch
  else if c = 4#3 then some .incomplete
  else Option.none

/-- The outcome that `validate_and_strip` has (44_validate.md R142). -/
def Result.ofStripped (v : Stripped) : Result :=
  match v with
  | .ok _ => .ok
  | .err .startByteMismatch => .startMismatch
  | .err .checksumMismatch => .checksumMismatch

/-- `RXFULL` (R22). -/
def rxFull (s : State) : Bool := s.rxcnt == 32#6

/-- `SOF` (R23, 42_frame_start.md R116). -/
def sofView (s : State) : Bool := decide (2 ≤ s.rxcnt.toNat) && sofOk (rxByte s 0) (rxByte s 1)

/-- `RXSUM` (41_checksum.md R105): the sum of the bytes received so far, at most the first thirty. -/
def rxSum (s : State) : U16 := sum16 (rxBytes s (min s.rxcnt.toNat msumLen))

/-- The outbound frame `T` (45_command_encode.md R150). -/
def txFrame (s : State) : List Byte := encodeCommand s.txop s.txarg

/-- `TXBYTEi` (R33, R150): one byte of the view, zero-extended. -/
def txByte (s : State) (i : Nat) : U16 := zext16 (byteAt (txFrame s) i)

/-- The value of `STATUS` (R19, 40_access_and_buffer.md R90). -/
def statusWord (s : State) : U16 :=
  (0b000000#6 ++ BitVec.ofBool s.badacc ++ BitVec.ofBool s.illcmd ++ BitVec.ofBool s.txvalid
    ++ BitVec.ofBool s.rxovr ++ BitVec.ofBool (sofView s) ++ BitVec.ofBool (rxFull s)
    ++ BitVec.ofBool s.fvalid ++ s.result.code : BitVec 16)

/-- The outcome code that the host finds in bits 2:0 of a `STATUS` value it has read (10_state.md R19). -/
def outcomeCode (v : U16) : BitVec 3 := v.extractLsb' 0 3

/-- The fields of a `STATUS` value (R19). -/
structure StatusFields where
  result : Result
  fvalid : Bool
  rxfull : Bool
  sof : Bool
  rxovr : Bool
  txvalid : Bool
  illcmd : Bool
  badacc : Bool
deriving DecidableEq, Repr

/-- The host's reading of a `STATUS` value: bits 15:10 must be 0 (R37), and codes 5 to 7 in bits 2:0 are rejected as
not a state of the block (U9). -/
def decodeStatus (v : U16) : Option StatusFields :=
  if v.extractLsb' 10 6 = 0#6 then
    match Result.ofCode (outcomeCode v) with
    | some r =>
      some { result := r, fvalid := v.getLsbD 3, rxfull := v.getLsbD 4, sof := v.getLsbD 5, rxovr := v.getLsbD 6
             txvalid := v.getLsbD 7, illcmd := v.getLsbD 8, badacc := v.getLsbD 9 }
    | Option.none => Option.none
  else Option.none

end Sys2Proof.Machine
end

