-- ==== Sys2Proof/Machine/Buffer.lean ====
section
/-! DEFINITION. The writing operations of the receive side and of control (40_access_and_buffer.md R87 to R89,
44_validate.md R132). A write returns nothing. -/

namespace Sys2Proof.Machine

/-- `RXCLR` (R88). -/
def execRxclr (s : State) : Host.Outcome State Fault Refusal := .next (State.returning none (clearRx s))

/-- `VALIDATE` (R132). -/
def execValidate (s : State) : Host.Outcome State Fault Refusal := .next (State.returning none (validateBuffer s))

/-- `SOFTRST` (R89). -/
def execSoftrst (s : State) : Host.Outcome State Fault Refusal := .next (State.returning none (resetBlock s))

/-- `PUSH b` (R87). -/
def execPush (b : Byte) (s : State) : Host.Outcome State Fault Refusal := .next (State.returning none (pushByte b s))

end Sys2Proof.Machine
end

