-- ==== Sys2Proof/Machine/Encoder.lean ====
section
/-! DEFINITION. The writing operations of the command encoder (45_command_encode.md R144 to R146). -/

namespace Sys2Proof.Machine

/-- `ENC.MODE a` (R144). -/
def execEncMode (a : Byte) (s : State) : Host.Outcome State Fault Refusal :=
  .next (State.returning none (State.loadTx opChangeMode a s))

/-- `ENC.READ a` (R145): `a` goes into the frame as given (R152). -/
def execEncRead (a : Byte) (s : State) : Host.Outcome State Fault Refusal :=
  .next (State.returning none (State.loadTx opRequestRead a s))

/-- `ENC.SLEEP a` (R146). -/
def execEncSleep (a : Byte) (s : State) : Host.Outcome State Fault Refusal :=
  .next (State.returning none (State.loadTx opSetSleep a s))

end Sys2Proof.Machine
end

