-- ==== Sys2Proof/Machine/Frames.lean ====
section
/-! DEFINITION. The four wire-frame rows of the table. A frame is not one access: 30_encoding.md R77 says which accesses
stand for the function a row cites (`encode_command` of R143, `validate_and_strip` of R131). A frame's meaning is the
first of them, and the host goes on with the others, one access a step (00_scope.md R7, log 6). -/

namespace Sys2Proof.Machine

/-- Operations as the accesses that the host issues. -/
def accessesOf (is : List Instr) : List HostEvent := is.map fun i => .issue (encode i)

/-- `RDTX` (30_encoding.md R78). -/
def rdtx : List Instr :=
  [.rdTxbyte0, .rdTxbyte1, .rdTxbyte2, .rdTxbyte3, .rdTxbyte4, .rdTxbyte5, .rdTxbyte6]

/-- `RDFIELDS` (30_encoding.md R78). -/
def rdfields : List Instr :=
  [.rdField0, .rdField1, .rdField2, .rdField3, .rdField4, .rdField5, .rdField6, .rdField7, .rdField8, .rdField9,
    .rdField10, .rdField11]

/-- What follows the `RXCLR` of a reception (R77): every byte pushed by its own write of `RXDATA`, then `VALIDATE`, then
the read of the outcome. -/
def receptionOf (B : List Byte) : List HostEvent := accessesOf (B.map .push ++ [.validate]) ++ [.readOutcome]

/-- `encode_command(cmd, a)` over the block (R77): the `ENC.*` of the opcode; `RDTX` follows. -/
def emitCommand (op a : Byte) (s : State) : State :=
  State.following (accessesOf rdtx) (State.returning none (State.loadTx op a s))

/-- `validate_and_strip` followed by `decode` over the block (R77): `RXCLR`; the rest of the reception follows. -/
def receiveFrame (B : List Byte) (s : State) : State :=
  State.following (receptionOf B) (State.returning none (clearRx s))

/-- `RD.STATUS`, and on `OK` the host goes on with `RDFIELDS` (R77). -/
def readOutcome (s : State) : State :=
  State.following (if outcomeCode (statusWord s) = Result.ok.code then accessesOf rdfields else [])
    (State.returning (some (statusWord s)) s)

/-- `CFRAME.ChangeMode` (R143, R144). The checksum bytes of the written frame are no input of `encode_command`: the
frame read back carries its own (R65, R153, log 7). -/
def execCframeChangeMode (a : Byte) (_chk : U16) (s : State) : Host.Outcome State Fault Refusal :=
  .next (emitCommand opChangeMode a s)

/-- `CFRAME.RequestReadPassive` (R143, R145). -/
def execCframeRequestReadPassive (a : Byte) (_chk : U16) (s : State) : Host.Outcome State Fault Refusal :=
  .next (emitCommand opRequestRead a s)

/-- `CFRAME.SetSleep` (R143, R146). -/
def execCframeSetSleep (a : Byte) (_chk : U16) (s : State) : Host.Outcome State Fault Refusal :=
  .next (emitCommand opSetSleep a s)

/-- `MFRAME` (R131, R132). -/
def execMframe (len : U16) (m : Measurement) (trailer chk : U16) (s : State) : Host.Outcome State Fault Refusal :=
  .next (receiveFrame (mframeBytes len m trailer chk) s)

end Sys2Proof.Machine
end

