-- ==== Sys2Proof/Machine/Reads.lean ====
section
/-! DEFINITION. The register reads (40_access_and_buffer.md R90 to R94): each returns one value and changes nothing
else (20_memory.md R51). -/

namespace Sys2Proof.Machine

/-- `RD.STATUS` (R90). -/
def execRdStatus (s : State) : Host.Outcome State Fault Refusal := .next (State.returning (some (statusWord s)) s)

/-- `RD.RXCNT` (R91): `zext_16(RXCNT)`. -/
def execRdRxcnt (s : State) : Host.Outcome State Fault Refusal := .next (State.returning (some (s.rxcnt.setWidth 16)) s)

/-- `RD.RXSUM` (R92). -/
def execRdRxsum (s : State) : Host.Outcome State Fault Refusal := .next (State.returning (some (rxSum s)) s)

/-- `RD.FIELD0` (R93), whatever `FVALID` is (R201). -/
def execRdField0 (s : State) : Host.Outcome State Fault Refusal := .next (State.returning (some (s.fields.get 0)) s)

/-- `RD.FIELD1` (R93), whatever `FVALID` is (R201). -/
def execRdField1 (s : State) : Host.Outcome State Fault Refusal := .next (State.returning (some (s.fields.get 1)) s)

/-- `RD.FIELD2` (R93), whatever `FVALID` is (R201). -/
def execRdField2 (s : State) : Host.Outcome State Fault Refusal := .next (State.returning (some (s.fields.get 2)) s)

/-- `RD.FIELD3` (R93), whatever `FVALID` is (R201). -/
def execRdField3 (s : State) : Host.Outcome State Fault Refusal := .next (State.returning (some (s.fields.get 3)) s)

/-- `RD.FIELD4` (R93), whatever `FVALID` is (R201). -/
def execRdField4 (s : State) : Host.Outcome State Fault Refusal := .next (State.returning (some (s.fields.get 4)) s)

/-- `RD.FIELD5` (R93), whatever `FVALID` is (R201). -/
def execRdField5 (s : State) : Host.Outcome State Fault Refusal := .next (State.returning (some (s.fields.get 5)) s)

/-- `RD.FIELD6` (R93), whatever `FVALID` is (R201). -/
def execRdField6 (s : State) : Host.Outcome State Fault Refusal := .next (State.returning (some (s.fields.get 6)) s)

/-- `RD.FIELD7` (R93), whatever `FVALID` is (R201). -/
def execRdField7 (s : State) : Host.Outcome State Fault Refusal := .next (State.returning (some (s.fields.get 7)) s)

/-- `RD.FIELD8` (R93), whatever `FVALID` is (R201). -/
def execRdField8 (s : State) : Host.Outcome State Fault Refusal := .next (State.returning (some (s.fields.get 8)) s)

/-- `RD.FIELD9` (R93), whatever `FVALID` is (R201). -/
def execRdField9 (s : State) : Host.Outcome State Fault Refusal := .next (State.returning (some (s.fields.get 9)) s)

/-- `RD.FIELD10` (R93), whatever `FVALID` is (R201). -/
def execRdField10 (s : State) : Host.Outcome State Fault Refusal := .next (State.returning (some (s.fields.get 10)) s)

/-- `RD.FIELD11` (R93), whatever `FVALID` is (R201). -/
def execRdField11 (s : State) : Host.Outcome State Fault Refusal := .next (State.returning (some (s.fields.get 11)) s)

/-- `RD.TXBYTE0` (R94), whatever `TXVALID` is (R202). -/
def execRdTxbyte0 (s : State) : Host.Outcome State Fault Refusal := .next (State.returning (some (txByte s 0)) s)

/-- `RD.TXBYTE1` (R94), whatever `TXVALID` is (R202). -/
def execRdTxbyte1 (s : State) : Host.Outcome State Fault Refusal := .next (State.returning (some (txByte s 1)) s)

/-- `RD.TXBYTE2` (R94), whatever `TXVALID` is (R202). -/
def execRdTxbyte2 (s : State) : Host.Outcome State Fault Refusal := .next (State.returning (some (txByte s 2)) s)

/-- `RD.TXBYTE3` (R94), whatever `TXVALID` is (R202). -/
def execRdTxbyte3 (s : State) : Host.Outcome State Fault Refusal := .next (State.returning (some (txByte s 3)) s)

/-- `RD.TXBYTE4` (R94), whatever `TXVALID` is (R202). -/
def execRdTxbyte4 (s : State) : Host.Outcome State Fault Refusal := .next (State.returning (some (txByte s 4)) s)

/-- `RD.TXBYTE5` (R94), whatever `TXVALID` is (R202). -/
def execRdTxbyte5 (s : State) : Host.Outcome State Fault Refusal := .next (State.returning (some (txByte s 5)) s)

/-- `RD.TXBYTE6` (R94), whatever `TXVALID` is (R202). -/
def execRdTxbyte6 (s : State) : Host.Outcome State Fault Refusal := .next (State.returning (some (txByte s 6)) s)

end Sys2Proof.Machine
end

