-- ==== Sys2Proof/Machine/Dispatch.lean ====
section
/-! DEFINITION. One arm per instruction: a direct call of its meaning. -/

namespace Sys2Proof.Machine

def exec (i : Instr) (s : State) : Host.Outcome State Fault Refusal :=
  match i with
  | .rxclr => Sys2Proof.Machine.execRxclr s
  | .validate => Sys2Proof.Machine.execValidate s
  | .softrst => Sys2Proof.Machine.execSoftrst s
  | .push b => Sys2Proof.Machine.execPush b s
  | .encMode a => Sys2Proof.Machine.execEncMode a s
  | .encRead a => Sys2Proof.Machine.execEncRead a s
  | .encSleep a => Sys2Proof.Machine.execEncSleep a s
  | .rdStatus => Sys2Proof.Machine.execRdStatus s
  | .rdRxcnt => Sys2Proof.Machine.execRdRxcnt s
  | .rdRxsum => Sys2Proof.Machine.execRdRxsum s
  | .rdField0 => Sys2Proof.Machine.execRdField0 s
  | .rdField1 => Sys2Proof.Machine.execRdField1 s
  | .rdField2 => Sys2Proof.Machine.execRdField2 s
  | .rdField3 => Sys2Proof.Machine.execRdField3 s
  | .rdField4 => Sys2Proof.Machine.execRdField4 s
  | .rdField5 => Sys2Proof.Machine.execRdField5 s
  | .rdField6 => Sys2Proof.Machine.execRdField6 s
  | .rdField7 => Sys2Proof.Machine.execRdField7 s
  | .rdField8 => Sys2Proof.Machine.execRdField8 s
  | .rdField9 => Sys2Proof.Machine.execRdField9 s
  | .rdField10 => Sys2Proof.Machine.execRdField10 s
  | .rdField11 => Sys2Proof.Machine.execRdField11 s
  | .rdTxbyte0 => Sys2Proof.Machine.execRdTxbyte0 s
  | .rdTxbyte1 => Sys2Proof.Machine.execRdTxbyte1 s
  | .rdTxbyte2 => Sys2Proof.Machine.execRdTxbyte2 s
  | .rdTxbyte3 => Sys2Proof.Machine.execRdTxbyte3 s
  | .rdTxbyte4 => Sys2Proof.Machine.execRdTxbyte4 s
  | .rdTxbyte5 => Sys2Proof.Machine.execRdTxbyte5 s
  | .rdTxbyte6 => Sys2Proof.Machine.execRdTxbyte6 s
  | .cframeChangeMode a chk => Sys2Proof.Machine.execCframeChangeMode a chk s
  | .cframeRequestReadPassive a chk => Sys2Proof.Machine.execCframeRequestReadPassive a chk s
  | .cframeSetSleep a chk => Sys2Proof.Machine.execCframeSetSleep a chk s
  | .mframe len m trailer chk => Sys2Proof.Machine.execMframe len m trailer chk s

end Sys2Proof.Machine
end

