-- ==== Sys2Proof/Machine/Step.lean ====
section
/-! DEFINITION. One step: the host's oldest pending event is performed, which is one register access or the hard reset
(00_scope.md R7, 20_memory.md R50, R54). -/

namespace Sys2Proof.Machine

/-- One step. With nothing pending the block keeps its state: it takes no step of its own and no time passes for it
(00_scope.md R7, 70_reset_and_hazards.md R210, log 3). -/
def step (s : State) : Host.Outcome State Fault Refusal :=
  match fetch s with
  | none => .next s
  | some (.hardReset, t) => .next (resetBlock t)
  | some (.readOutcome, t) => .next (readOutcome t)
  | some (.issue bytes, t) =>
    match decode bytes with
    | .op i => exec i t
    | .illegal x => .next (performIllegal x t)
    | .refused e => .refused (.notAnAccess e)

/-- The state in which the host's next access is the word `w` of a table row: it is put before whatever else is
pending (log 1). -/
def State.withFetchWord (s : State) (nbits w : Nat) : State :=
  { s with pending := .issue (tableBytes nbits w) :: s.pending }

end Sys2Proof.Machine
end

