-- ==== Sys2Proof/Machine/Access.lean ====
section
/-! DEFINITION. The two access primitives as the spec defines them, by cases on the register index
(40_access_and_buffer.md R85, R86). `step` does not use them: it decodes an access word into an instruction. They are
what the host's software calls, and a statement says that both readings of an access agree. -/

namespace Sys2Proof.Machine

/-- `RegRead(idx)` (R85): the new state and the value returned. -/
def regRead (idx : Idx) (s : State) : State × U16 :=
  if idx = idxStatus then (s, statusWord s)
  else if idx = idxRxcnt then (s, s.rxcnt.setWidth 16)
  else if idx = idxRxsum then (s, rxSum s)
  else if 0x10 ≤ idx.toNat ∧ idx.toNat ≤ 0x1B then (s, s.fields.get (Fin.ofNat 12 (idx.toNat - 0x10)))
  else if 0x20 ≤ idx.toNat ∧ idx.toNat ≤ 0x26 then (s, txByte s (idx.toNat - 0x20))
  else (report .illegalAccess s, 0x0000#16)

/-- `RegWrite(idx, v)` (R86). -/
def regWrite (idx : Idx) (v : U16) (s : State) : State :=
  if idx = idxCmd then
    if lo8 v = codeRxclr then clearRx s
    else if lo8 v = codeValidate then validateBuffer s
    else if lo8 v = codeSoftrst then resetBlock s
    else report .illegalCommand s
  else if idx = idxRxdata then pushByte (lo8 v) s
  else if idx = idxTxreq then
    if hi8 v = opChangeMode ∨ hi8 v = opRequestRead ∨ hi8 v = opSetSleep then State.loadTx (hi8 v) (lo8 v) s
    else report .illegalCommand s
  else report .illegalAccess s

/-- One host access (00_scope.md R8): the new state, with the value of a read in `returned`. -/
def access (wr : Bool) (idx : Idx) (data : U16) (s : State) : State :=
  if wr = true then State.returning none (regWrite idx data s)
  else State.returning (some (regRead idx s).2) (regRead idx s).1

end Sys2Proof.Machine
end

