-- ==== Sys2Proof/Machine/HostDriver.lean ====
section
/-! DEFINITION. The host software the source describes (46_host_software.md): ModeController and Driver. It is outside
the block (00_scope.md R4) and adds nothing to State; it reaches the block only through RegRead and RegWrite. The
transport is an abstract capability whose calls succeed, time out or fail (R166, 93_implementation_defined.md U12, U14);
no number stands for a timeout (70_reset_and_hazards.md R211). -/

namespace Sys2Proof.Machine

/-- The host's belief about the sensor's mode (R160, R206). -/
inductive SensorMode where
  | active
  | passive
deriving DecidableEq, Repr

/-- The host's belief about the sensor's sleep state (R160). -/
inductive SleepState where
  | awake
  | asleep
deriving DecidableEq, Repr

/-- ModeController's state (R160). -/
structure ModeController where
  mode : SensorMode
  sleep : SleepState
deriving DecidableEq, Repr

/-- The initial value, "device default per datasheet" (R160, R198). -/
def ModeController.initial : ModeController := { mode := .active, sleep := .awake }

/-- A transport. The spec gives it calls (R166) and no state of its own, so a name is all that is held of it. -/
structure Transport where
  name : Nat
deriving DecidableEq, Repr

/-- The Driver: the transport it owns for its lifetime (R159), its ModeController, and the stored Measurement, none at
first (R165, R169, R198). -/
structure Driver where
  transport : Transport
  ctl : ModeController
  stored : Option Measurement
deriving DecidableEq, Repr

/-- The Driver before its first call (R198), over the transport it has acquired. -/
def Driver.initial (tr : Transport) : Driver :=
  { transport := tr, ctl := ModeController.initial, stored := none }

/-- The one host: the transports that nobody owns, and its one Driver while it has one (R159, R172). Mode, sleep and
Measurement are in the Driver and nowhere else. -/
structure HostState where
  free : List Transport
  driver : Option Driver
deriving DecidableEq, Repr

/-- The Driver comes to own a transport (R159, "scoped acquisition"): one that nobody owns, for the host's single Driver
instance (R172). None where there is a Driver already or the transport is not free. -/
def HostState.acquire (tr : Transport) (h : HostState) : Option HostState :=
  if h.driver = none ∧ tr ∈ h.free then
    some { free := h.free.filter fun x => decide (x ≠ tr), driver := some (Driver.initial tr) }
  else none

/-- Teardown (R159): the Driver "releases the transport resource", and its mode, sleep and Measurement end with it. -/
def HostState.teardown (h : HostState) : HostState :=
  match h.driver with
  | some d => { free := d.transport :: h.free, driver := none }
  | none => h

/-- The error kinds of the host (R170). -/
inductive DriverError where
  | startByteMismatch
  | checksumMismatch
  | timeout
  | transportError
deriving DecidableEq, Repr

/-- How one call of the transport ends (U14). -/
inductive TransportCall (α : Type) where
  | done (a : α)
  | timedOut
  | failed
deriving DecidableEq, Repr

/-- How `read_once` ends: `Result<Measurement, DriverError>` of R165. -/
inductive ReadResult where
  | measured (m : Measurement)
  | error (e : DriverError)
deriving DecidableEq, Repr

/-- Reads of several registers, in order. -/
def regReads (idxs : List Idx) (s : State) : State × List U16 :=
  match idxs with
  | [] => (s, [])
  | i :: rest => ((regReads rest (regRead i s).1).1, (regRead i s).2 :: (regReads rest (regRead i s).1).2)

/-- The indices of `TXBYTE0` to `TXBYTE6`, in the order of `RDTX` (30_encoding.md R78). -/
def txbyteIndices : List Idx := [0x20#6, 0x21#6, 0x22#6, 0x23#6, 0x24#6, 0x25#6, 0x26#6]

/-- The indices of `FIELD0` to `FIELD11`, in the order of `RDFIELDS`. -/
def fieldIndices : List Idx :=
  [0x10#6, 0x11#6, 0x12#6, 0x13#6, 0x14#6, 0x15#6, 0x16#6, 0x17#6, 0x18#6, 0x19#6, 0x1A#6, 0x1B#6]

/-- A command frame as the host makes it: a write of `TXREQ`, then `RDTX`, whose seven low bytes it sends (R161, R162,
45_command_encode.md R150). -/
def hostCommand (op arg : Byte) (s : State) : State × List Byte :=
  ((regReads txbyteIndices (regWrite idxTxreq (op ++ arg) s)).1,
   (regReads txbyteIndices (regWrite idxTxreq (op ++ arg) s)).2.map lo8)

/-- `LOADFRAME` as the host issues it (30_encoding.md R78). -/
def hostLoad (B : List Byte) (s : State) : State :=
  B.foldl (fun t b => regWrite idxRxdata (zext16 b) t) (regWrite idxCmd (zext16 codeRxclr) s)

/-- The change of `mode` that `set_mode(passive)` makes (R161); `sleep` is unchanged. -/
def ModeController.withMode (passive : Bool) (c : ModeController) : ModeController :=
  { c with mode := if passive then .passive else .active }

/-- The change of `sleep` that `set_sleep(asleep)` makes (R162); `mode` is unchanged. -/
def ModeController.withSleep (asleep : Bool) (c : ModeController) : ModeController :=
  { c with sleep := if asleep then .asleep else .awake }

/-- `set_mode(passive)` over the block (R161): no failure condition, and the frame even when the mode is the same. -/
def setMode (passive : Bool) (c : ModeController) (s : State) : ModeController × State × List Byte :=
  (c.withMode passive, hostCommand opChangeMode (if passive then 0x00#8 else 0x01#8) s)

/-- `set_sleep(asleep)` over the block (R162). -/
def setSleep (asleep : Bool) (c : ModeController) (s : State) : ModeController × State × List Byte :=
  (c.withSleep asleep, hostCommand opSetSleep (if asleep then 0x00#8 else 0x01#8) s)

/-- `needs_explicit_request()` (R163): true iff the mode is passive; sleep does not enter. -/
def needsExplicitRequest (c : ModeController) : Bool := c.mode == .passive

/-- The error a transport call surfaces, none if it is done (R168, R170). -/
def TransportCall.failure {α : Type} (c : TransportCall α) : Option DriverError :=
  match c with
  | .done _ => none
  | .timedOut => some .timeout
  | .failed => some .transportError

/-- The mode bits after a write of the frame that changes them (R167). Whether a failed write takes the change back is
not in the source: a constant of Config (U16, log 15). -/
def afterWrite (w : TransportCall Unit) (before after : ModeController) : ModeController :=
  if w.failure.isSome && Config.undoOnFailedWrite then before else after

/-- What `send_mode` and `send_sleep` leave (R167): the Driver, the block, the frame offered to the transport, and the
write failure if there is one. -/
structure Sent where
  driver : Driver
  block : State
  frame : List Byte
  failure : Option DriverError
deriving DecidableEq, Repr

/-- `send_mode(passive)` (R167). -/
def sendMode (passive : Bool) (w : TransportCall Unit) (d : Driver) (s : State) : Sent :=
  { driver := { d with ctl := afterWrite w d.ctl (setMode passive d.ctl s).1 }
    block := (setMode passive d.ctl s).2.1
    frame := (setMode passive d.ctl s).2.2
    failure := w.failure }

/-- `send_sleep(asleep)` (R167). -/
def sendSleep (asleep : Bool) (w : TransportCall Unit) (d : Driver) (s : State) : Sent :=
  { driver := { d with ctl := afterWrite w d.ctl (setSleep asleep d.ctl s).1 }
    block := (setSleep asleep d.ctl s).2.1
    frame := (setSleep asleep d.ctl s).2.2
    failure := w.failure }

/-- What `read_once` leaves (R165): the Driver, the block, the request frame it offered to the transport (empty when
none is needed), and how it ended. -/
structure ReadOnce where
  driver : Driver
  block : State
  request : List Byte
  result : ReadResult
deriving DecidableEq, Repr

/-- The block after `read_once` has loaded its thirty-two bytes and validated them (R165). -/
def hostJudge (B : Vector Byte 32) (s : State) : State :=
  regWrite idxCmd (zext16 codeValidate) (hostLoad B.toList s)

/-- The part of `read_once` after the bytes have arrived (R165): load, validate, read the outcome and the fields. Exactly
thirty-two bytes are pushed after an `RXCLR`, so the code read is 1, 2 or 3 and the last case below is 3. -/
def readOnceDecode (B : Vector Byte 32) (request : List Byte) (d : Driver) (s : State) : ReadOnce :=
  let v := regRead idxStatus (hostJudge B s)
  let fields := regReads fieldIndices v.1
  let m := Measurement.ofFn fun k => fields.2.getD k.val 0#16
  if outcomeCode v.2 = Result.ok.code then
    { driver := { d with stored := some m }, block := fields.1, request := request, result := .measured m }
  else if outcomeCode v.2 = Result.startMismatch.code then
    { driver := d, block := v.1, request := request, result := .error .startByteMismatch }
  else { driver := d, block := v.1, request := request, result := .error .checksumMismatch }

/-- The part of `read_once` that waits for thirty-two bytes and reads them, `transport.read(32)` (R165, R168). -/
def readOnceReceive (wait : TransportCall Unit) (read : TransportCall (Vector Byte 32)) (request : List Byte)
    (d : Driver) (s : State) : ReadOnce :=
  match wait.failure with
  | some e => { driver := d, block := s, request := request, result := .error e }
  | none =>
    match read with
    | .done B => readOnceDecode B request d s
    | .timedOut => { driver := d, block := s, request := request, result := .error .timeout }
    | .failed => { driver := d, block := s, request := request, result := .error .transportError }

/-- `read_once()` (R165): a request frame first if the mode is passive, then the reception. No retry (R171). -/
def readOnce (write wait : TransportCall Unit) (read : TransportCall (Vector Byte 32)) (d : Driver) (s : State) :
    ReadOnce :=
  if needsExplicitRequest d.ctl then
    match write.failure with
    | some e =>
      { driver := d, block := (hostCommand opRequestRead 0x00#8 s).1
        request := (hostCommand opRequestRead 0x00#8 s).2, result := .error e }
    | none =>
      readOnceReceive wait read (hostCommand opRequestRead 0x00#8 s).2 d (hostCommand opRequestRead 0x00#8 s).1
  else readOnceReceive wait read [] d s

/-! ### A session: acquire, call, tear down (R159) -/

/-- A call of the Driver, with how the transport's calls within it end. -/
inductive DriverCall where
  | readOnce (write wait : TransportCall Unit) (read : TransportCall (Vector Byte 32))
  | sendMode (passive : Bool) (write : TransportCall Unit)
  | sendSleep (asleep : Bool) (write : TransportCall Unit)
deriving DecidableEq, Repr

/-- How a call of the Driver ends: the result of `read_once`, or the write failure that the other two surface. -/
inductive CallEnd where
  | read (r : ReadResult)
  | sent (failure : Option DriverError)
deriving DecidableEq, Repr

/-- One call. -/
def Driver.call (c : DriverCall) (d : Driver) (s : State) : Driver × State × CallEnd :=
  match c with
  | .readOnce write wait read =>
    ((Machine.readOnce write wait read d s).driver, (Machine.readOnce write wait read d s).block,
      .read (Machine.readOnce write wait read d s).result)
  | .sendMode passive write =>
    ((Machine.sendMode passive write d s).driver, (Machine.sendMode passive write d s).block,
      .sent (Machine.sendMode passive write d s).failure)
  | .sendSleep asleep write =>
    ((Machine.sendSleep asleep write d s).driver, (Machine.sendSleep asleep write d s).block,
      .sent (Machine.sendSleep asleep write d s).failure)

/-- Calls one after the other: one thread, whatever each ends in (R172). -/
def Driver.calls (cs : List DriverCall) (d : Driver) (s : State) : Driver × State × List CallEnd :=
  match cs with
  | [] => (d, s, [])
  | c :: rest =>
    ((Driver.calls rest (d.call c s).1 (d.call c s).2.1).1, (Driver.calls rest (d.call c s).1 (d.call c s).2.1).2.1,
      (d.call c s).2.2 :: (Driver.calls rest (d.call c s).1 (d.call c s).2.1).2.2)

/-- "scoped acquisition with guaranteed release" (R159): the Driver acquires its transport, is called, and is torn down,
whatever the calls ended in. None where the transport cannot be acquired. -/
def session (tr : Transport) (cs : List DriverCall) (h : HostState) (s : State) :
    Option (HostState × State × List CallEnd) :=
  match h.acquire tr with
  | none => none
  | some g =>
    some (({ g with driver := some (Driver.calls cs (Driver.initial tr) s).1 } : HostState).teardown,
      (Driver.calls cs (Driver.initial tr) s).2.1, (Driver.calls cs (Driver.initial tr) s).2.2)

end Sys2Proof.Machine
end

