-- ==== Sys2Proof/Safety.lean ====
section
/-! DEFINITION. What the reachable states have in common (10_state.md R39), and what it means that an operation leaves
a part of the state alone, in the terms the statements use. -/

namespace Sys2Proof.Safety

open Sys2Proof.Machine

/-- The invariants of R39, each under its number there, and the form of the model's buffer. -/
structure Inv (s : State) : Prop where
  /-- The buffer list is in its canonical form, every listed offset below 32. -/
  buffer : Memory.wf s.rxbuf = true
  /-- R39 item 1. -/
  count : s.rxcnt.toNat ≤ 32
  /-- R39 item 3, the count. (Item 2 is the type of `RESULT`.) -/
  judgedFull : s.result = .ok ∨ s.result = .startMismatch ∨ s.result = .checksumMismatch → s.rxcnt = 32#6
  /-- R39 item 3, the outcome. -/
  judgedOutcome : s.result = .ok ∨ s.result = .startMismatch ∨ s.result = .checksumMismatch →
    s.result = Result.ofStripped (validateAndStrip (rxBytes s 32))
  /-- R39 item 4. -/
  okFields : s.result = .ok →
    s.fvalid = true ∧ ∀ k : Fin 12, s.fields.get k = be16 (rxByte s (4 + 2 * k.val)) (rxByte s (5 + 2 * k.val))
  /-- R39 item 5. -/
  overrunFull : s.rxovr = true → s.rxcnt = 32#6
  /-- R39 item 6, a frame was encoded. -/
  txEncoded : s.txvalid = true → s.txop = opChangeMode ∨ s.txop = opRequestRead ∨ s.txop = opSetSleep
  /-- R39 item 6, none was. -/
  txEmpty : s.txvalid = false → s.txop = 0x00#8 ∧ s.txarg = 0x00#8
  /-- R39 item 7. -/
  noMeasurement : s.fvalid = false → (∀ k : Fin 12, s.fields.get k = 0#16) ∧ s.result ≠ .ok
  /-- R39 item 8. -/
  emptyBuffer : s.rxcnt = 0#6 → (s.result = .none ∨ s.result = .incomplete) ∧ s.rxovr = false

/-- Every byte of the receive buffer reads in `t` as in `s`. -/
def BufferSame (s t : State) : Prop := ∀ off : Nat, rxByte t off = rxByte s off

/-- The receive side of R13 is the same, every buffer byte of it. -/
def RxSame (s t : State) : Prop :=
  BufferSame s t ∧ t.rxcnt = s.rxcnt ∧ t.result = s.result ∧ t.fvalid = s.fvalid ∧ t.fields = s.fields ∧
    t.rxovr = s.rxovr

/-- The transmit side of R13 is the same. -/
def TxSame (s t : State) : Prop := t.txop = s.txop ∧ t.txarg = s.txarg ∧ t.txvalid = s.txvalid

/-- The common group of R13, the two sticky error flags, is the same. -/
def StickySame (s t : State) : Prop := t.illcmd = s.illcmd ∧ t.badacc = s.badacc

/-- All of the block's state is the same. -/
def BlockSame (s t : State) : Prop := RxSame s t ∧ TxSame s t ∧ StickySame s t

/-- Two states that differ at most in buffer bytes at offsets not below `RXCNT`, which no rule reads (R34). -/
def AgreeUpToStale (s t : State) : Prop :=
  (∀ off : Nat, off < s.rxcnt.toNat → rxByte t off = rxByte s off) ∧ t.rxcnt = s.rxcnt ∧ t.result = s.result ∧
    t.fvalid = s.fvalid ∧ t.fields = s.fields ∧ t.rxovr = s.rxovr ∧ TxSame s t ∧ StickySame s t ∧
    t.pending = s.pending ∧ t.returned = s.returned

/-- Operations performed one after the other, as the host issues them (30_encoding.md R77). -/
def performAll (is : List Instr) (s : State) : Host.Outcome State Fault Refusal :=
  match is with
  | [] => .next s
  | i :: rest =>
    match exec i s with
    | .next t => performAll rest t
    | .fault f => .fault f
    | .refused r => .refused r

/-- Steps, one after the other, with the values their accesses return, in order; none where a step answers no next
state. -/
def runFor (n : Nat) (s : State) : Option (State × List U16) :=
  match n with
  | 0 => some (s, [])
  | k + 1 =>
    match step s with
    | .next t => (runFor k t).map fun r => (r.1, t.returned.toList ++ r.2)
    | .fault _ => none
    | .refused _ => none

/-- `LOADFRAME` as operations (30_encoding.md R78). -/
def loadFrame (B : List Byte) : List Instr := .rxclr :: B.map .push

/-- The reading operations of the table (30_encoding.md R62: 22 of them). -/
def readOps : List Instr :=
  [.rdStatus, .rdRxcnt, .rdRxsum, .rdField0, .rdField1, .rdField2, .rdField3, .rdField4, .rdField5, .rdField6,
    .rdField7, .rdField8, .rdField9, .rdField10, .rdField11, .rdTxbyte0, .rdTxbyte1, .rdTxbyte2, .rdTxbyte3,
    .rdTxbyte4, .rdTxbyte5, .rdTxbyte6]

/-- The step performs a reset: the hard reset input, or an access that decodes to `SOFTRST` (70_reset_and_hazards.md
R195). -/
def ResetNext (s : State) : Prop :=
  ∃ rest, s.pending = .hardReset :: rest ∨ ∃ B, s.pending = .issue B :: rest ∧ decode B = .op .softrst

/-- The step performs the given instruction. -/
def InstrNext (s : State) (i : Instr) : Prop := ∃ B rest, s.pending = .issue B :: rest ∧ decode B = .op i

/-- The indices whose read is illegal (R100): reserved, or write-only. -/
def IllegalToRead (idx : Idx) : Prop :=
  idx = 0x00#6 ∨ idx = 0x02#6 ∨ idx = 0x05#6 ∨ (0x06 ≤ idx.toNat ∧ idx.toNat ≤ 0x0F) ∨
    (0x1C ≤ idx.toNat ∧ idx.toNat ≤ 0x1F) ∨ (0x27 ≤ idx.toNat ∧ idx.toNat ≤ 0x3F)

/-- The indices whose write is illegal (R100): reserved, or read-only. -/
def IllegalToWrite (idx : Idx) : Prop :=
  idx = 0x01#6 ∨ idx = 0x03#6 ∨ idx = 0x04#6 ∨ (0x06 ≤ idx.toNat ∧ idx.toNat ≤ 0x0F) ∨
    (0x10 ≤ idx.toNat ∧ idx.toNat ≤ 0x1B) ∨ (0x1C ≤ idx.toNat ∧ idx.toNat ≤ 0x1F) ∨
    (0x20 ≤ idx.toNat ∧ idx.toNat ≤ 0x26) ∨ (0x27 ≤ idx.toNat ∧ idx.toNat ≤ 0x3F)

end Sys2Proof.Safety
end

