-- ==== Sys2Proof/Certificates/Slice0/Obligations.lean ====
section
/-! DEFINITION. The statements for the provers, in the order of OBLIGATIONS.json. "log n" is notes/assumptions/n.md. -/

open Sys2Proof Sys2Proof.Machine Sys2Proof.Safety

/-! ### Encoding and decoding -/

/-- Decode and encode agree on every well-formed instruction. -/
def Obligations.DecodeEncodeRoundTrip : Prop :=
  ∀ i : Instr, i.wellFormed = true → decode (encode i) = .op i

/-- R62: "a word `w` spells the operation when `w & mask = match`", for every row and every 24-bit word, and the
operand of the rows that have one is `w[7:0]`. -/
def Obligations.AccessWordSpellsRowOfMatchAndMask : Prop :=
  ∀ (w : AccWord) (i : Instr) (mt mk : AccWord), accRow i = some (mt, mk) →
    ((w &&& mk = mt) ↔ ∃ j, decodeAcc w = .op j ∧ accRow j = some (mt, mk)) ∧
    (∀ b : Byte, decodeAcc w = .op (.push b) ∨ decodeAcc w = .op (.encMode b) ∨ decodeAcc w = .op (.encRead b) ∨
      decodeAcc w = .op (.encSleep b) → b.toNat = w.toNat % 256)

/-- Words written out from R60 to R67, one per family. -/
def Obligations.WrittenWordsDecode : Prop :=
  decode [0x80#8, 0xFF#8, 0x01#8] = .op .rxclr ∧
  decode [0x80#8, 0x01#8, 0x02#8] = .op .validate ∧
  decode [0x82#8, 0xAB#8, 0x42#8] = .op (.push 0x42#8) ∧
  decode [0x85#8, 0xE4#8, 0x01#8] = .op (.encSleep 0x01#8) ∧
  decode [0x01#8, 0x12#8, 0x34#8] = .op .rdStatus ∧
  decode [0x1B#8, 0x00#8, 0x00#8] = .op .rdField11 ∧
  decode [0x26#8, 0x00#8, 0x00#8] = .op .rdTxbyte6 ∧
  decode [0x42#8, 0x4D#8, 0xE4#8, 0x00#8, 0x8D#8, 0x02#8, 0x00#8] = .op (.cframeSetSleep 0x8D#8 0x0200#16)

/-- R73: a word with bit 22 set is refused by name, and the machine is given nothing. -/
def Obligations.Bit22SpellsNoAccess : Prop :=
  ∀ w : AccWord, w.getLsbD 22 = true →
    decode (accBytes w) = .refused .bit22Set ∧
    ∀ (s : State) (rest : List HostEvent), s.pending = .issue (accBytes w) :: rest →
      step s = .refused (.notAnAccess .bit22Set)

/-- No byte of a wire frame is dropped: a frame that decodes encodes back to itself. -/
def Obligations.FrameDecodingLosesNoByte : Prop :=
  ∀ (B : List Byte) (i : Instr), B.length = 7 ∨ B.length = 32 → decode B = .op i → encode i = B

/-- R37: the ignored bits of `CMD` and `RXDATA` writes change nothing, and the bits no field occupies read as 0. -/
def Obligations.ReservedBitsIgnoredAndReadZero : Prop :=
  (∀ (idx : Idx) (v v' : U16), idx = 0x00#6 ∨ idx = 0x02#6 → v.toNat % 256 = v'.toNat % 256 →
    ∀ s : State, access true idx v s = access true idx v' s) ∧
  (∀ s : State, (regRead 0x01#6 s).2.toNat < 2 ^ 10 ∧ (regRead 0x03#6 s).2.toNat < 2 ^ 6 ∧
    ∀ idx : Idx, 0x20 ≤ idx.toNat → idx.toNat ≤ 0x26 → (regRead idx s).2.toNat < 2 ^ 8)

/-! ### The step -/

/-- A step runs the decoded instruction: the oldest access is taken, the later ones stay pending. -/
def Obligations.StepPerformsDecodedInstruction : Prop :=
  ∀ (s : State) (B : List Byte) (rest : List HostEvent) (i : Instr),
    s.pending = .issue B :: rest → decode B = .op i → step s = exec i { s with pending := rest }

/-- No instruction touches what the host has issued after it; only a wire-frame row goes on with accesses of its own
first (log 6). -/
def Obligations.LaterAccessesStayPending : Prop :=
  ∀ (i : Instr) (s t : State), exec i s = .next t →
    ∃ es, t.pending = es ++ s.pending ∧ (accRow i ≠ none → es = [])

/-- R7: a step that takes an event other than the hard reset is one register access, for the wire frames too, whose
further accesses it leaves in the queue (log 1, log 6). -/
def Obligations.EachStepIsOneAccess : Prop :=
  ∀ (s t : State) (e : HostEvent) (rest : List HostEvent), s.pending = e :: rest → e ≠ .hardReset →
    step s = .next t →
      ∃ (wr : Bool) (idx : Idx) (data : U16) (es : List HostEvent),
        t = State.withPending (es ++ rest) (access wr idx data s)

/-- R7: "the bytes they produce reach the block only as the data of host writes to `RXDATA`". (That a reset changes what
the buffer reads as is the model's choice, log 5.) -/
def Obligations.BufferChangesOnlyByPush : Prop :=
  ∀ (s t : State) (off : Nat), step s = .next t → rxByte t off ≠ rxByte s off →
    ResetNext s ∨ (off = s.rxcnt.toNat ∧ off < 32 ∧ InstrNext s (.push (rxByte t off)))

/-- Every access word with bit 22 clear, from every state, does what RegRead and RegWrite say (R85, R86, R101): the
decoder's reading of an access and the register map's agree. (`pending`, `returned`: log 1, 2.) -/
def Obligations.AccessStepsAsRegReadRegWrite : Prop :=
  ∀ (s : State) (rest : List HostEvent) (wr : Bool) (idx : Idx) (data : U16),
    s.pending = .issue (accBytes (accWord wr idx data)) :: rest →
      step s = .next (access wr idx data { s with pending := rest })

/-- R99: an illegal command code sets `ILLCMD` and changes nothing else; `0x0102` is no illegal code. (`pending` and
`returned` carry the access and the value a read returns, log 1 and log 2.) -/
def Obligations.IllegalCommandOnlySetsIllcmd : Prop :=
  (∀ (s : State) (rest : List HostEvent) (v : U16),
    v.toNat % 256 ≠ 1 → v.toNat % 256 ≠ 2 → v.toNat % 256 ≠ 3 →
    s.pending = .issue (accBytes (accWord true 0x00#6 v)) :: rest →
      step s = .next { s with pending := rest, illcmd := true, returned := none }) ∧
  decode (accBytes (accWord true 0x00#6 0x0102#16)) = .op .validate

/-- R147: an illegal command opcode sets `ILLCMD` and leaves the outbound frame. (`pending`, `returned`: log 1, 2.) -/
def Obligations.IllegalOpcodeOnlySetsIllcmd : Prop :=
  ∀ (s : State) (rest : List HostEvent) (v : U16),
    v.toNat / 256 ≠ 0xE1 → v.toNat / 256 ≠ 0xE2 → v.toNat / 256 ≠ 0xE4 →
    s.pending = .issue (accBytes (accWord true 0x05#6 v)) :: rest →
      step s = .next { s with pending := rest, illcmd := true, returned := none }

/-- R100: an illegal access sets `BADACC`; a read returns `0x0000`, a write changes nothing else. (`pending`,
`returned`: log 1, 2.) -/
def Obligations.IllegalAccessOnlySetsBadacc : Prop :=
  ∀ (s : State) (rest : List HostEvent) (idx : Idx) (v : U16),
    (IllegalToRead idx → s.pending = .issue (accBytes (accWord false idx v)) :: rest →
      step s = .next { s with pending := rest, badacc := true, returned := some 0x0000#16 }) ∧
    (IllegalToWrite idx → s.pending = .issue (accBytes (accWord true idx v)) :: rest →
      step s = .next { s with pending := rest, badacc := true, returned := none })

/-- With no access pending nothing changes. MODEL'S CHOICE of form, log 3. -/
def Obligations.IdleBlockKeepsItsState : Prop :=
  ∀ s : State, s.pending = [] → step s = .next s

/-- The hard reset and `SOFTRST` leave the same state (R195). -/
def Obligations.HardResetActsAsSoftrst : Prop :=
  ∀ (s : State) (rest : List HostEvent), s.pending = .hardReset :: rest →
    ∃ t, step s = .next t ∧ exec .softrst { s with pending := rest } = .next t

/-! ### Reset and the invariant -/

/-- R38: the state after reset and what the registers then read. -/
def Obligations.ResetRegisterValues : Prop :=
  State.reset.rxcnt = 0#6 ∧ State.reset.result = .none ∧ State.reset.fvalid = false ∧
  (∀ k : Fin 12, State.reset.fields.get k = 0x0000#16) ∧
  State.reset.rxovr = false ∧ State.reset.illcmd = false ∧ State.reset.badacc = false ∧
  State.reset.txop = 0x00#8 ∧ State.reset.txarg = 0x00#8 ∧ State.reset.txvalid = false ∧
  regRead 0x01#6 State.reset = (State.reset, 0x0000#16) ∧ regRead 0x03#6 State.reset = (State.reset, 0x0000#16) ∧
  regRead 0x04#6 State.reset = (State.reset, 0x0000#16) ∧
  (regReads fieldIndices State.reset).2 = List.replicate 12 0x0000#16 ∧
  (regReads txbyteIndices State.reset).2 =
    [0x0042#16, 0x004D#16, 0x0000#16, 0x0000#16, 0x0000#16, 0x0000#16, 0x008F#16]

/-- The invariants of R39 hold after reset. -/
def Obligations.ResetSatisfiesInvariant : Prop := Inv State.reset

/-- R39: every step keeps the invariants, whatever the host issues, from every state that has them. -/
def Obligations.StepKeepsInvariant : Prop :=
  ∀ s t : State, Inv s → step s = .next t → Inv t

/-- R89: `SOFTRST` gives the reset values, from every state, and again the same state, buffer bytes that no rule reads
aside (R34); it is the only operation that clears `FVALID`, `TXVALID`, `ILLCMD` or `BADACC`. (`pending`, `returned`:
log 1, 2.) -/
def Obligations.SoftrstGivesResetValues : Prop :=
  (∀ x : Byte, decode [0x80#8, x, 0x03#8] = .op .softrst) ∧
  (∀ (i : Instr) (s t : State), exec i s = .next t →
    (s.fvalid = true ∧ t.fvalid = false) ∨ (s.txvalid = true ∧ t.txvalid = false) ∨
      (s.illcmd = true ∧ t.illcmd = false) ∨ (s.badacc = true ∧ t.badacc = false) → i = .softrst) ∧
  ∀ s : State, ∃ t u, exec .softrst s = .next t ∧
    t.rxcnt = 0#6 ∧ t.result = .none ∧ t.fvalid = false ∧ t.rxovr = false ∧
    (∀ k : Fin 12, t.fields.get k = 0x0000#16) ∧
    t.txop = 0x00#8 ∧ t.txarg = 0x00#8 ∧ t.txvalid = false ∧ t.illcmd = false ∧ t.badacc = false ∧
    t.returned = none ∧ t.pending = s.pending ∧ regRead 0x01#6 t = (t, 0x0000#16) ∧
    AgreeUpToStale { State.reset with pending := s.pending } t ∧
    exec .softrst t = .next u ∧ AgreeUpToStale t u

/-- MODEL'S CHOICE, log 4 and log 5: what the operations that need not erase the buffer do to its bytes; after a
`SOFTRST` the whole state is the reset state's, the queue aside (log 1). -/
def Obligations.ClearingKeepsAndResetZeroesBufferBytes : Prop :=
  ∀ s t : State, (exec .rxclr s = .next t → BufferSame s t) ∧
    (exec .softrst s = .next t →
      t = { State.reset with pending := s.pending } ∧ ∀ off : Nat, rxByte t off = 0x00#8)

/-! ### The buffer -/

/-- R87: `PUSH` appends while there is room and otherwise drops the byte and sets `RXOVR`; and how the views follow. -/
def Obligations.PushStoresOrOverruns : Prop :=
  (∀ x b : Byte, decode [0x82#8, x, b] = .op (.push b)) ∧
  ∀ (b : Byte) (s : State),
    (s.rxcnt.toNat < 32 → ∃ t, exec (.push b) s = .next t ∧
      (∀ off : Nat, rxByte t off = if off = s.rxcnt.toNat then b else rxByte s off) ∧
      t.rxcnt.toNat = s.rxcnt.toNat + 1 ∧ t.result = s.result ∧ t.fvalid = s.fvalid ∧ t.fields = s.fields ∧
      t.rxovr = s.rxovr ∧ TxSame s t ∧ StickySame s t ∧ t.pending = s.pending ∧ t.returned = none ∧
      rxSum t = (if s.rxcnt.toNat < 30 then add16 (rxSum s) (zext16 b) else rxSum s) ∧
      sofView t = (if s.rxcnt.toNat = 0 then false else if s.rxcnt.toNat = 1 then sofOk (rxByte s 0) b
        else sofView s) ∧
      rxFull t = decide (s.rxcnt.toNat = 31)) ∧
    (32 ≤ s.rxcnt.toNat → exec (.push b) s = .next { s with rxovr := true, returned := none })

/-- R88: `RXCLR` empties the buffer, forgets the result and the overrun, and keeps everything else. -/
def Obligations.RxclrForgetsOnlyTheReception : Prop :=
  (∀ x : Byte, decode [0x80#8, x, 0x01#8] = .op .rxclr) ∧
  ∀ s : State, ∃ t, exec .rxclr s = .next t ∧
    t.rxcnt = 0#6 ∧ t.result = .none ∧ t.rxovr = false ∧ rxFull t = false ∧ sofView t = false ∧
    rxSum t = 0x0000#16 ∧ t.fvalid = s.fvalid ∧ t.fields = s.fields ∧ TxSame s t ∧ StickySame s t ∧
    t.pending = s.pending ∧ t.returned = none ∧ exec .rxclr t = .next t

/-- R34: no operation can tell apart two states that differ in bytes at offsets not below `RXCNT`: they step alike,
return alike, and still differ at most there. -/
def Obligations.StaleBytesAreUnobservable : Prop :=
  ∀ s s' t : State, AgreeUpToStale s s' → step s = .next t →
    ∃ t', step s' = .next t' ∧ AgreeUpToStale t t'

/-! ### VALIDATE -/

/-- R132: the outcome of `VALIDATE` in every state, with the order of the checks and what it never writes. -/
def Obligations.ValidateOutcome : Prop :=
  (∀ x : Byte, decode [0x80#8, x, 0x02#8] = .op .validate) ∧
  ∀ s : State, ∃ t, exec .validate s = .next t ∧
    (if s.rxcnt ≠ 32#6 then t.result = .incomplete ∧ t.fvalid = s.fvalid ∧ t.fields = s.fields
     else if ¬ (rxByte s 0 = 0x42#8 ∧ rxByte s 1 = 0x4D#8) then
       t.result = .startMismatch ∧ t.fvalid = s.fvalid ∧ t.fields = s.fields
     else if sum16 (rxBytes s 30) ≠ be16 (rxByte s 30) (rxByte s 31) then
       t.result = .checksumMismatch ∧ t.fvalid = s.fvalid ∧ t.fields = s.fields
     else t.result = .ok ∧ t.fvalid = true ∧
       ∀ k : Fin 12, t.fields.get k = be16 (rxByte s (4 + 2 * k.val)) (rxByte s (5 + 2 * k.val))) ∧
    BufferSame s t ∧ t.rxcnt = s.rxcnt ∧ t.rxovr = s.rxovr ∧ TxSame s t ∧ StickySame s t ∧
    t.pending = s.pending ∧ t.returned = none

/-- R142: with a full buffer `VALIDATE` is `validate_and_strip`, then `decode`. -/
def Obligations.ValidateAgreesWithValidateAndStrip : Prop :=
  ∀ s : State, s.rxcnt = 32#6 → ∃ t, exec .validate s = .next t ∧
    (match validateAndStrip (rxBytes s 32) with
     | .ok P => t.result = .ok ∧ t.fields = decodePayload P
     | .err .startByteMismatch => t.result = .startMismatch
     | .err .checksumMismatch => t.result = .checksumMismatch)

/-- R135: a `VALIDATE` that fails changes `RESULT` and nothing else (`returned` is the model's record of reads). -/
def Obligations.FailedValidateChangesOnlyResult : Prop :=
  ∀ s t : State, exec .validate s = .next t → t.result ≠ .ok →
    t = { s with result := t.result, returned := none }

/-- R137: `VALIDATE` again gives the same state, and with a full buffer a `PUSH` between changes nothing of it. -/
def Obligations.ValidateRepeats : Prop :=
  ∀ s t : State, exec .validate s = .next t →
    exec .validate t = .next t ∧
    (s.rxcnt = 32#6 → ∀ b : Byte, ∃ u v, exec (.push b) t = .next u ∧ exec .validate u = .next v ∧
      v.result = t.result ∧ v.fields = t.fields ∧ v.fvalid = t.fvalid ∧ BufferSame t v ∧ v.rxcnt = t.rxcnt)

/-- R139: accepted frames satisfy the checksum equation, as a function and in the block. -/
def Obligations.AcceptedFramesSumUp : Prop :=
  (∀ (B P : List Byte), B.length = 32 → validateAndStrip B = .ok P →
    sum16 (slice B 0 30) = be16 (byteAt B 30) (byteAt B 31)) ∧
  (∀ s : State, Inv s → s.result = .ok →
    rxSum s = be16 (rxByte s 30) (rxByte s 31) ∧ sofView s = true)

/-- R140: a frame built by the reference encoder, loaded and validated, gives its Measurement back, from every state
and for every length field and trailer. -/
def Obligations.ReferenceFrameRoundTrip : Prop :=
  ∀ (m : Measurement) (len trailer : U16),
    (∃ P, validateAndStrip (referenceFrame m len trailer) = .ok P ∧ decodePayload P = m) ∧
    ∀ s : State, ∃ t, performAll (loadFrame (referenceFrame m len trailer) ++ [.validate]) s = .next t ∧
      t.result = .ok ∧ t.fvalid = true ∧ t.fields = m

/-- R141: each of the 256 single-bit flips of a valid frame is rejected, 16 for the start bytes, 240 for the
checksum. -/
def Obligations.SingleBitFlipsAreRejected : Prop :=
  ∀ (B P : List Byte), B.length = 32 → validateAndStrip B = .ok P → ∀ i j : Nat, i < 32 → j < 8 →
    validateAndStrip (B.set i (byteAt B i ^^^ BitVec.ofNat 8 (2 ^ j))) =
      if i < 2 then .err .startByteMismatch else .err .checksumMismatch

/-- R108: where a valid checksum lies. -/
def Obligations.ValidChecksumRange : Prop :=
  ∀ B : List Byte, B.length = 32 → byteAt B 0 = 0x42#8 → byteAt B 1 = 0x4D#8 →
    computed B = 0x008F#16 + sum16 (slice B 2 30) ∧ 0x008F ≤ (computed B).toNat ∧ (computed B).toNat ≤ 0x1C73 ∧
    ((received B).toNat < 0x008F ∨ 0x1C73 < (received B).toNat → validateAndStrip B = .err .checksumMismatch) ∧
    ∀ P, validateAndStrip B = .ok P → (byteAt B 30).toNat ≤ 0x1C

/-- R103: the laws of the byte sum. -/
def Obligations.ByteSumLaws : Prop :=
  (∀ B : List Byte, B.length ≤ 257 → (sum16 B).toNat = (B.map BitVec.toNat).sum) ∧
  (∀ B : List Byte, B.length ≤ 30 → (sum16 B).toNat ≤ 0x1DE2) ∧
  (∀ op a : Byte, (sum16 (cframeBody op a)).toNat ≤ 0x028D) ∧
  (∀ A B : List Byte, A.Perm B → sum16 A = sum16 B) ∧
  (∀ A B : List Byte, sum16 (A ++ B) = add16 (sum16 A) (sum16 B)) ∧
  (∀ (A C : List Byte) (b b' : Byte), b ≠ b' →
    sum16 (A ++ b' :: C) - sum16 (A ++ b :: C) = zext16 b' - zext16 b ∧
      sum16 (A ++ b' :: C) ≠ sum16 (A ++ b :: C)) ∧
  (∀ A C : List Byte, sum16 (A ++ 0x00#8 :: C) = sum16 (A ++ C))

/-- R109: a permutation of `B[2..30)` goes undetected, and the wrong contents are stripped out. -/
def Obligations.PermutedInteriorIsAccepted : Prop :=
  ∀ (B P X : List Byte), B.length = 32 → validateAndStrip B = .ok P → X.Perm (slice B 2 30) →
    validateAndStrip (slice B 0 2 ++ X ++ slice B 30 32) = .ok (slice X 2 26)

/-- R125: the extractor is a bijection between 24-byte payloads and Measurements. -/
def Obligations.DecodeIsBijection : Prop :=
  (∀ P Q : List Byte, P.length = 24 → Q.length = 24 → decodePayload P = decodePayload Q → P = Q) ∧
  (∀ m : Measurement, ∃ P, P.length = 24 ∧ decodePayload P = m)

/-- R123: `extract` reads the same fields from the frame as `decode` reads from its payload. -/
def Obligations.ExtractIsDecodeOfPayload : Prop :=
  ∀ B : List Byte, B.length = 32 → extract B = decodePayload (slice B 4 28)

/-- R122: `be16` is a bijection with inverse `hi8`, `lo8`, and its value is `hi * 256 + lo`. -/
def Obligations.BigEndianHalves : Prop :=
  (∀ h l : Byte, (be16 h l).toNat = h.toNat * 256 + l.toNat ∧ hi8 (be16 h l) = h ∧ lo8 (be16 h l) = l) ∧
  ∀ v : U16, be16 (hi8 v) (lo8 v) = v

/-- R114: one pair of bytes passes. -/
def Obligations.OneStartPairPasses : Prop :=
  ∀ b0 b1 : Byte, sofOk b0 b1 = true ↔ b0 = 0x42#8 ∧ b1 = 0x4D#8

/-! ### The encoder -/

/-- R144, R145, R146: what a legal `ENC.*` writes; every other piece of state is as it was. -/
def Obligations.EncodeOperationsLatch : Prop :=
  ∀ (a : Byte) (s : State),
    decode [0x85#8, 0xE1#8, a] = .op (.encMode a) ∧ decode [0x85#8, 0xE2#8, a] = .op (.encRead a) ∧
    decode [0x85#8, 0xE4#8, a] = .op (.encSleep a) ∧
    exec (.encMode a) s = .next { s with txop := 0xE1#8, txarg := a, txvalid := true, returned := none } ∧
    exec (.encRead a) s = .next { s with txop := 0xE2#8, txarg := a, txvalid := true, returned := none } ∧
    exec (.encSleep a) s = .next { s with txop := 0xE4#8, txarg := a, txvalid := true, returned := none }

/-- R150: the seven bytes of the outbound frame; a read changes nothing but what is returned. -/
def Obligations.OutboundFrameReads : Prop :=
  ∀ s : State,
    exec .rdTxbyte0 s = .next { s with returned := some 0x0042#16 } ∧
    exec .rdTxbyte1 s = .next { s with returned := some 0x004D#16 } ∧
    exec .rdTxbyte2 s = .next { s with returned := some (zext16 s.txop) } ∧
    exec .rdTxbyte3 s = .next { s with returned := some 0x0000#16 } ∧
    exec .rdTxbyte4 s = .next { s with returned := some (zext16 s.txarg) } ∧
    exec .rdTxbyte5 s =
      .next { s with returned := some (zext16 (hi8 (0x008F#16 + zext16 s.txop + zext16 s.txarg))) } ∧
    exec .rdTxbyte6 s =
      .next { s with returned := some (zext16 (lo8 (0x008F#16 + zext16 s.txop + zext16 s.txarg))) }

/-- R153: the outbound frame's checksum field is the byte sum of its first five bytes, at all times, and the sum never
wraps. -/
def Obligations.OutboundChecksumHolds : Prop :=
  txFrame State.reset = [0x42#8, 0x4D#8, 0x00#8, 0x00#8, 0x00#8, 0x00#8, 0x8F#8] ∧
  ∀ s : State, be16 (byteAt (txFrame s) 5) (byteAt (txFrame s) 6) = sum16 (slice (txFrame s) 0 5) ∧
    (sum16 (slice (txFrame s) 0 5)).toNat = 0x8F + s.txop.toNat + s.txarg.toNat

/-- R148: an `ENC.*` writes exactly the transmit state, twice is as once, and the receive operations leave the transmit
state. -/
def Obligations.TransmitAndReceiveShareNoState : Prop :=
  (∀ (i : Instr) (a : Byte) (s t : State), i = .encMode a ∨ i = .encRead a ∨ i = .encSleep a →
    exec i s = .next t → RxSame s t ∧ StickySame s t ∧ exec i t = .next t) ∧
  (∀ (i : Instr) (b : Byte) (s t : State), i = .push b ∨ i = .rxclr ∨ i = .validate →
    exec i s = .next t → TxSame s t ∧ StickySame s t)

/-! ### The wire-frame rows. MODEL'S CHOICE that a frame stands for the accesses of R77, the host going on with them one
a step, log 6, and that the checksum bytes of a written command frame are not read, log 7. -/

/-- A command-frame row encodes its command, and the seven reads that follow return the frame of R143. -/
def Obligations.CommandFrameRowsEncodeAndRead : Prop :=
  ∀ (a : Byte) (chk : U16) (s : State) (i : Instr) (op : Byte),
    (i = .cframeChangeMode a chk ∧ op = 0xE1#8) ∨ (i = .cframeRequestReadPassive a chk ∧ op = 0xE2#8) ∨
      (i = .cframeSetSleep a chk ∧ op = 0xE4#8) →
    exec i s = .next { s with txop := op, txarg := a, txvalid := true, returned := none,
                              pending := accessesOf rdtx ++ s.pending } ∧
    ∀ rest, s.pending = .issue (encode i) :: rest → ∃ t,
      runFor 8 s = some (t, (encodeCommand op a).map zext16) ∧
      t = { s with txop := op, txarg := a, txvalid := true, pending := rest, returned := t.returned }

/-- The measurement-frame row empties the buffer; the accesses that follow push its thirty-two bytes, validate them and
read the outcome: a well-formed frame gives `OK` and its fields, one with another checksum gives `CHECKSUM_MISMATCH` and
keeps the fields. -/
def Obligations.MeasurementFrameRowLoadsAndValidates : Prop :=
  ∀ (len : U16) (m : Measurement) (trailer chk : U16) (s : State),
    exec (.mframe len m trailer chk) s =
      .next { s with rxcnt := 0#6, result := .none, rxovr := false, returned := none,
                     pending := receptionOf (mframeBytes len m trailer chk) ++ s.pending } ∧
    ∀ rest, s.pending = .issue (encode (.mframe len m trailer chk)) :: rest → ∃ t u,
      runFor 35 s = some (t, [statusWord t]) ∧
      performAll (loadFrame (mframeBytes len m trailer chk) ++ [.validate]) s = .next u ∧
      t = { u with pending := t.pending, returned := t.returned } ∧
      (∀ off : Nat, rxByte t off = if off < 32 then byteAt (mframeBytes len m trailer chk) off else rxByte s off) ∧
      t.rxcnt = 32#6 ∧ t.rxovr = false ∧ TxSame s t ∧ StickySame s t ∧
      (if (Instr.mframe len m trailer chk).wellFormed = true then
         t.result = .ok ∧ t.fvalid = true ∧ t.fields = m ∧
         runFor 47 s = some ({ t with pending := rest, returned := some m.f11 }, statusWord t :: m.toList)
       else t.result = .checksumMismatch ∧ t.fvalid = s.fvalid ∧ t.fields = s.fields ∧ t.pending = rest)

/-! ### The reads -/

/-- R90: the value of `RD.STATUS`, bit by bit, and that reading clears nothing. -/
def Obligations.ReadStatusReturnsStatus : Prop :=
  (∀ x y : Byte, decode [0x01#8, x, y] = .op .rdStatus) ∧
  ∀ s : State, ∃ v : U16, exec .rdStatus s = .next { s with returned := some v } ∧
    v.extractLsb' 0 3 = s.result.code ∧ v.getLsbD 3 = s.fvalid ∧
    v.getLsbD 4 = decide (s.rxcnt = 32#6) ∧
    v.getLsbD 5 = decide (2 ≤ s.rxcnt.toNat ∧ rxByte s 0 = 0x42#8 ∧ rxByte s 1 = 0x4D#8) ∧
    v.getLsbD 6 = s.rxovr ∧ v.getLsbD 7 = s.txvalid ∧ v.getLsbD 8 = s.illcmd ∧ v.getLsbD 9 = s.badacc ∧
    v.toNat ≤ 0x03FC

/-- R20 and R19: a `STATUS` value read from the block decodes to the flags it stands for, and the codes 5 to 7 are
rejected (U9). -/
def Obligations.StatusDecodesBack : Prop :=
  (∀ s : State, decodeStatus (statusWord s) =
    some { result := s.result, fvalid := s.fvalid, rxfull := rxFull s, sof := sofView s, rxovr := s.rxovr
           txvalid := s.txvalid, illcmd := s.illcmd, badacc := s.badacc }) ∧
  (∀ v : U16, 5 ≤ v.toNat % 8 → decodeStatus v = none)

/-- R91, R92: the count, zero-extended, and the running checksum of at most thirty received bytes. -/
def Obligations.ReadCountAndSum : Prop :=
  (∀ x y : Byte, decode [0x03#8, x, y] = .op .rdRxcnt ∧ decode [0x04#8, x, y] = .op .rdRxsum) ∧
  ∀ s : State,
    (∃ v : U16, exec .rdRxcnt s = .next { s with returned := some v } ∧ v.toNat = s.rxcnt.toNat) ∧
    (∃ v : U16, exec .rdRxsum s = .next { s with returned := some v } ∧
      v = sum16 (rxBytes s (min s.rxcnt.toNat 30)) ∧ v.toNat ≤ 0x1DE2)

/-- R93: each field register, at its number. -/
def Obligations.ReadFields : Prop :=
  (∀ x y : Byte,
    decode [0x10#8, x, y] = .op .rdField0 ∧ decode [0x11#8, x, y] = .op .rdField1 ∧
    decode [0x12#8, x, y] = .op .rdField2 ∧ decode [0x13#8, x, y] = .op .rdField3 ∧
    decode [0x14#8, x, y] = .op .rdField4 ∧ decode [0x15#8, x, y] = .op .rdField5 ∧
    decode [0x16#8, x, y] = .op .rdField6 ∧ decode [0x17#8, x, y] = .op .rdField7 ∧
    decode [0x18#8, x, y] = .op .rdField8 ∧ decode [0x19#8, x, y] = .op .rdField9 ∧
    decode [0x1A#8, x, y] = .op .rdField10 ∧ decode [0x1B#8, x, y] = .op .rdField11) ∧
  ∀ s : State,
    exec .rdField0 s = .next { s with returned := some (s.fields.get 0) } ∧
    exec .rdField1 s = .next { s with returned := some (s.fields.get 1) } ∧
    exec .rdField2 s = .next { s with returned := some (s.fields.get 2) } ∧
    exec .rdField3 s = .next { s with returned := some (s.fields.get 3) } ∧
    exec .rdField4 s = .next { s with returned := some (s.fields.get 4) } ∧
    exec .rdField5 s = .next { s with returned := some (s.fields.get 5) } ∧
    exec .rdField6 s = .next { s with returned := some (s.fields.get 6) } ∧
    exec .rdField7 s = .next { s with returned := some (s.fields.get 7) } ∧
    exec .rdField8 s = .next { s with returned := some (s.fields.get 8) } ∧
    exec .rdField9 s = .next { s with returned := some (s.fields.get 9) } ∧
    exec .rdField10 s = .next { s with returned := some (s.fields.get 10) } ∧
    exec .rdField11 s = .next { s with returned := some (s.fields.get 11) }

/-- R51: no read has a side effect, and reading again returns the same. -/
def Obligations.ReadsHaveNoSideEffect : Prop :=
  ∀ i ∈ readOps, ∀ s t : State, exec i s = .next t →
    BlockSame s t ∧ t.rxbuf = s.rxbuf ∧ t.pending = s.pending ∧ exec i t = .next t

/-! ### Rules of the whole machine -/

/-- R21, R25, R26, R27: nothing but a reset takes `FVALID`, `TXVALID`, `ILLCMD` or `BADACC` back. -/
def Obligations.FlagsFallOnlyAtReset : Prop :=
  ∀ s t : State, step s = .next t →
    (s.fvalid = true ∧ t.fvalid = false) ∨ (s.txvalid = true ∧ t.txvalid = false) ∨
      (s.illcmd = true ∧ t.illcmd = false) ∨ (s.badacc = true ∧ t.badacc = false) → ResetNext s

/-- R32: the field bank changes only by an accepted frame or by reset. -/
def Obligations.FieldsChangeOnlyOnAcceptanceOrReset : Prop :=
  ∀ s t : State, step s = .next t → t.fields ≠ s.fields →
    ResetNext s ∨ (t.result = .ok ∧ InstrNext s .validate)

/-- R16: what moves `RXCNT`, and how. (A measurement-frame row begins with the `RXCLR` of its sequence, log 6.) -/
def Obligations.CountMovesOnlyByItsOperations : Prop :=
  ∀ s t : State, step s = .next t → t.rxcnt ≠ s.rxcnt →
    (t.rxcnt = 0#6 ∧
      (ResetNext s ∨ InstrNext s .rxclr ∨ ∃ len m trailer chk, InstrNext s (.mframe len m trailer chk))) ∨
    (s.rxcnt.toNat < 32 ∧ t.rxcnt.toNat = s.rxcnt.toNat + 1 ∧ ∃ b, InstrNext s (.push b))

/-! ### The host software over the block -/

/-- R165: exactly thirty-two bytes are pushed after an `RXCLR`, so the outcome read is 1, 2 or 3, and nothing overruns:
"`RESULT = 4` cannot occur here". -/
def Obligations.ThirtyTwoBytesAreJudged : Prop :=
  ∀ (B : Vector Byte 32) (s : State),
    (hostJudge B s).rxcnt = 32#6 ∧ (hostJudge B s).rxovr = false ∧
    (outcomeCode (regRead 0x01#6 (hostJudge B s)).2 = 1#3 ∨ outcomeCode (regRead 0x01#6 (hostJudge B s)).2 = 2#3 ∨
      outcomeCode (regRead 0x01#6 (hostJudge B s)).2 = 3#3)

/-- R165: `read_once`, when the transport does its part, ends as `validate_and_strip` followed by `decode` says, sends
the request in passive mode only, and stores the Measurement on success. -/
def Obligations.ReadOnceFollowsValidateAndStrip : Prop :=
  ∀ (d : Driver) (s : State) (B : Vector Byte 32),
    let r := readOnce (.done ()) (.done ()) (.done B) d s
    r.request = (if d.ctl.mode = .passive then [0x42#8, 0x4D#8, 0xE2#8, 0x00#8, 0x00#8, 0x01#8, 0x71#8] else []) ∧
    r.driver.ctl = d.ctl ∧
    (match validateAndStrip B.toList with
     | .ok P => r.result = .measured (decodePayload P) ∧ r.driver.stored = some (decodePayload P) ∧
         r.block.fvalid = true ∧ r.block.fields = decodePayload P
     | .err .startByteMismatch => r.result = .error .startByteMismatch ∧ r.driver.stored = d.stored
     | .err .checksumMismatch => r.result = .error .checksumMismatch ∧ r.driver.stored = d.stored)

/-- R169: a `read_once` that fails, in the transport or in the codec, leaves the stored Measurement, and the block's
field bank with its `FVALID`, untouched. -/
def Obligations.FailedReadOnceKeepsTheMeasurement : Prop :=
  ∀ (write wait : TransportCall Unit) (read : TransportCall (Vector Byte 32)) (d : Driver) (s : State) (e : DriverError),
    (readOnce write wait read d s).result = .error e →
      (readOnce write wait read d s).driver = d ∧ (readOnce write wait read d s).block.fields = s.fields ∧
      (readOnce write wait read d s).block.fvalid = s.fvalid

/-- R164, R163: the mode property, with the frames of R161 and R162. -/
def Obligations.ModeStatePersists : Prop :=
  (∀ (c : ModeController) (s : State),
    needsExplicitRequest (setMode true c s).1 = true ∧ needsExplicitRequest (setMode false c s).1 = false ∧
    (∀ p, (setMode p c s).1.sleep = c.sleep) ∧ (∀ a, (setSleep a c s).1.mode = c.mode) ∧
    (setMode true c s).2.2 = [0x42#8, 0x4D#8, 0xE1#8, 0x00#8, 0x00#8, 0x01#8, 0x70#8] ∧
    (setMode false c s).2.2 = [0x42#8, 0x4D#8, 0xE1#8, 0x00#8, 0x01#8, 0x01#8, 0x71#8] ∧
    (setSleep true c s).2.2 = [0x42#8, 0x4D#8, 0xE4#8, 0x00#8, 0x00#8, 0x01#8, 0x73#8] ∧
    (setSleep false c s).2.2 = [0x42#8, 0x4D#8, 0xE4#8, 0x00#8, 0x01#8, 0x01#8, 0x74#8]) ∧
  (∀ (write wait : TransportCall Unit) (read : TransportCall (Vector Byte 32)) (d : Driver) (s : State),
    (readOnce write wait read d s).driver.ctl = d.ctl)

/-- R159: a transport is acquired by one Driver, which nobody else then holds; no call gives it away; teardown ends the
Driver, with its mode, sleep and Measurement, and releases the transport, whatever the calls of the session ended in.
(The host's bookkeeping is the model's form of it, log 15.) -/
def Obligations.TransportIsOwnedAndReleased : Prop :=
  (∀ (tr : Transport) (h g : HostState), h.acquire tr = some g →
    h.driver = none ∧ tr ∈ h.free ∧ g.driver = some (Driver.initial tr) ∧ tr ∉ g.free ∧
    (∀ x : Transport, x ≠ tr → (x ∈ g.free ↔ x ∈ h.free)) ∧ ∀ other : Transport, g.acquire other = none) ∧
  (∀ (c : DriverCall) (d : Driver) (s : State), (d.call c s).1.transport = d.transport) ∧
  (∀ (h : HostState) (d : Driver), h.driver = some d → h.teardown.driver = none ∧ d.transport ∈ h.teardown.free) ∧
  (∀ (tr : Transport) (cs : List DriverCall) (h : HostState) (s : State), h.driver = none → tr ∈ h.free →
    ∃ g u ends, session tr cs h s = some (g, u, ends) ∧ g.driver = none ∧
      (∀ x : Transport, x ∈ g.free ↔ x ∈ h.free) ∧ ends.length = cs.length)
end

