-- ==== Sys2Proof/Laws/Bytes.lean ====
section
/-! SUPPORT. The laws of the byte functions: the two halves of a 16-bit value, the byte sum, bytes of a list. -/

namespace Sys2Proof

@[simp] theorem hi8_be16 (h l : Byte) : hi8 (be16 h l) = h := by
  unfold hi8 be16
  ext i hi
  simp only [BitVec.getElem_extractLsb', BitVec.getLsbD_append]
  simp [show ¬ 8 + i < 8 by omega, hi]

@[simp] theorem lo8_be16 (h l : Byte) : lo8 (be16 h l) = l := by
  unfold lo8 be16
  ext i hi
  simp only [BitVec.getElem_extractLsb', BitVec.getLsbD_append, Nat.zero_add]
  simp [hi]

@[simp] theorem sum16_nil : sum16 [] = 0#16 := rfl

theorem sum16_foldl (B : List Byte) (s : U16) :
    B.foldl (fun s b => add16 s (zext16 b)) s = s + sum16 B := by
  induction B generalizing s with
  | nil => simp
  | cons b rest ih =>
    have h : sum16 (b :: rest) = add16 0#16 (zext16 b) + sum16 rest := ih (add16 0#16 (zext16 b))
    rw [List.foldl_cons, h]
    rw [ih]
    simp [add16, BitVec.add_assoc]

@[simp] theorem sum16_cons (b : Byte) (B : List Byte) : sum16 (b :: B) = zext16 b + sum16 B := by
  have h : sum16 (b :: B) = add16 0#16 (zext16 b) + sum16 B := sum16_foldl B (add16 0#16 (zext16 b))
  simpa [add16] using h

@[simp] theorem sum16_append (A B : List Byte) : sum16 (A ++ B) = sum16 A + sum16 B := by
  induction A with
  | nil => simp
  | cons a rest ih => simp [ih, BitVec.add_assoc]

@[simp] theorem byteAt_cons_zero (b : Byte) (B : List Byte) : byteAt (b :: B) 0 = b := rfl

@[simp] theorem byteAt_cons_succ (b : Byte) (B : List Byte) (i : Nat) : byteAt (b :: B) (i + 1) = byteAt B i := rfl

theorem length_mframeBytes (len : U16) (m : Measurement) (trailer chk : U16) :
    (mframeBytes len m trailer chk).length = 32 := rfl

theorem length_cframeBytes (op a : Byte) (chk : U16) : (cframeBytes op a chk).length = 7 := rfl

end Sys2Proof
end

