-- ==== Sys2Proof/Laws/Memory.lean ====
section
/-! SUPPORT. The laws of the receive buffer: reading after writing, and the canonical form that every write keeps. -/

namespace Sys2Proof.Machine

@[simp] theorem Memory.read_nil (i : Nat) : Memory.read [] i = Memory.unlisted := rfl

@[simp] theorem Memory.read_cons (c : Host.Cell) (m : Memory) (i : Nat) :
    Memory.read (c :: m) i = if c.1 = i then c.2 else Memory.read m i := rfl

theorem Memory.read_forget (m : Memory) (off i : Nat) :
    Memory.read (Memory.forget m off) i = if i = off then Memory.unlisted else Memory.read m i := by
  induction m with
  | nil => simp [Memory.forget]
  | cons c rest ih => 
    simp only [Memory.forget]
    split
    · rename_i h
      rw [ih, Memory.read_cons, h]
      simp only [eq_comm (a := off)]
      split <;> rfl
    · rename_i h
      rw [Memory.read_cons, ih, Memory.read_cons]
      split <;> split <;> simp_all

theorem Memory.read_place (m : Memory) (c : Host.Cell) (i : Nat)
    (hf : ∀ d ∈ m, d.1 ≠ c.1) : Memory.read (Memory.place m c) i = if c.1 = i then c.2 else Memory.read m i := by
  induction m with
  | nil => simp [Memory.place]
  | cons d rest ih =>
    have hd : d.1 ≠ c.1 := hf d (by simp)
    have ih' := ih (fun x hx => hf x (by simp [hx]))
    simp only [Memory.place]
    split
    · simp
    · simp only [Memory.read_cons, ih']
      split <;> split <;> simp_all

theorem Memory.forget_ne (m : Memory) (off : Nat) : ∀ d ∈ Memory.forget m off, d.1 ≠ off := by
  induction m with
  | nil => simp [Memory.forget]
  | cons c rest ih =>
    simp only [Memory.forget]
    split
    · exact ih
    · rename_i h
      intro d hd
      rcases List.mem_cons.mp hd with rfl | hd
      · exact h
      · exact ih d hd

/-- A read after a write: the written byte at its own offset, what was there before at every other. -/
theorem Memory.read_write (m : Memory) (off : Nat) (b : Byte) (i : Nat) :
    Memory.read (Memory.write m off b) i = if i = off then b else Memory.read m i := by
  unfold Memory.write
  split
  · rw [Memory.read_forget]; split <;> simp_all
  · rw [Memory.read_place _ _ _ (Memory.forget_ne m off), Memory.read_forget]
    simp only [eq_comm (a := i)]
    split <;> rfl

theorem Memory.wfFrom_mono {low low' : Nat} (m : Memory) (h : Memory.wfFrom low m = true) (hl : low' ≤ low) :
    Memory.wfFrom low' m = true := by
  cases m with
  | nil => rfl
  | cons c rest =>
    simp only [Memory.wfFrom, Bool.and_eq_true, decide_eq_true_eq] at *
    exact ⟨⟨⟨by omega, h.1.1.2⟩, h.1.2⟩, h.2⟩

theorem Memory.wfFrom_forget (m : Memory) (off : Nat) :
    ∀ low, Memory.wfFrom low m = true → Memory.wfFrom low (Memory.forget m off) = true := by
  induction m with
  | nil => intro low _; rfl
  | cons c rest ih =>
    intro low h
    simp only [Memory.wfFrom, Bool.and_eq_true, decide_eq_true_eq] at h
    simp only [Memory.forget]
    split
    · exact Memory.wfFrom_mono _ (ih _ h.2) (by omega)
    · simp only [Memory.wfFrom, Bool.and_eq_true, decide_eq_true_eq]
      exact ⟨h.1, ih _ h.2⟩

theorem Memory.wfFrom_place (m : Memory) (c : Host.Cell) (hc : c.1 < mframeLen) (hb : c.2 ≠ Memory.unlisted)
    (hf : ∀ d ∈ m, d.1 ≠ c.1) :
    ∀ low, low ≤ c.1 → Memory.wfFrom low m = true → Memory.wfFrom low (Memory.place m c) = true := by
  induction m with
  | nil => intro low hl _; simp [Memory.place, Memory.wfFrom, hl, hc, hb]
  | cons d rest ih =>
    intro low hl h
    simp only [Memory.wfFrom, Bool.and_eq_true, decide_eq_true_eq] at h
    have hd : d.1 ≠ c.1 := hf d (by simp)
    simp only [Memory.place]
    split
    · simp only [Memory.wfFrom, Bool.and_eq_true, decide_eq_true_eq]
      exact ⟨⟨⟨hl, hc⟩, hb⟩, ⟨⟨by omega, h.1.1.2⟩, h.1.2⟩, h.2⟩
    · simp only [Memory.wfFrom, Bool.and_eq_true, decide_eq_true_eq]
      exact ⟨h.1, ih (fun x hx => hf x (by simp [hx])) _ (by omega) h.2⟩

/-- A write at a buffer offset keeps the canonical form. -/
theorem Memory.write_wf (m : Memory) (off : Nat) (b : Byte) (hm : Memory.wf m = true) (ho : off < mframeLen) :
    Memory.wf (Memory.write m off b) = true := by
  unfold Memory.write Memory.wf at *
  split
  · exact Memory.wfFrom_forget _ _ _ hm
  · exact Memory.wfFrom_place _ _ ho (by assumption) (Memory.forget_ne m off) _ (Nat.zero_le _)
      (Memory.wfFrom_forget _ _ _ hm)

/-- The buffer after reset is in canonical form. -/
theorem Memory.reset_wf : Memory.wf State.reset.rxbuf = true := rfl

/-- `RXBUF` after the then-branch of `PUSH`. -/
theorem rxByte_storeByte (b : Byte) (s : State) (i : Nat) :
    rxByte (State.storeByte b s) i = if i = s.rxcnt.toNat then b else rxByte s i :=
  Memory.read_write _ _ _ _

end Sys2Proof.Machine
end

