-- ==== Sys2Proof/Laws/State.lean ====
section
/-! SUPPORT. What each named update of the state leaves in each field, true by rfl, so that no proof unfolds a record
update. -/

namespace Sys2Proof.Machine

variable (s : State)

@[simp] theorem returning_rxbuf (v : Option U16) : (State.returning v s).rxbuf = s.rxbuf := rfl
@[simp] theorem returning_rxcnt (v : Option U16) : (State.returning v s).rxcnt = s.rxcnt := rfl
@[simp] theorem returning_result (v : Option U16) : (State.returning v s).result = s.result := rfl
@[simp] theorem returning_fvalid (v : Option U16) : (State.returning v s).fvalid = s.fvalid := rfl
@[simp] theorem returning_fields (v : Option U16) : (State.returning v s).fields = s.fields := rfl
@[simp] theorem returning_rxovr (v : Option U16) : (State.returning v s).rxovr = s.rxovr := rfl
@[simp] theorem returning_txop (v : Option U16) : (State.returning v s).txop = s.txop := rfl
@[simp] theorem returning_txarg (v : Option U16) : (State.returning v s).txarg = s.txarg := rfl
@[simp] theorem returning_txvalid (v : Option U16) : (State.returning v s).txvalid = s.txvalid := rfl
@[simp] theorem returning_illcmd (v : Option U16) : (State.returning v s).illcmd = s.illcmd := rfl
@[simp] theorem returning_badacc (v : Option U16) : (State.returning v s).badacc = s.badacc := rfl
@[simp] theorem returning_pending (v : Option U16) : (State.returning v s).pending = s.pending := rfl
@[simp] theorem returning_returned (v : Option U16) : (State.returning v s).returned = v := rfl

@[simp] theorem withPending_rxbuf (q : List HostEvent) : (State.withPending q s).rxbuf = s.rxbuf := rfl
@[simp] theorem withPending_rxcnt (q : List HostEvent) : (State.withPending q s).rxcnt = s.rxcnt := rfl
@[simp] theorem withPending_result (q : List HostEvent) : (State.withPending q s).result = s.result := rfl
@[simp] theorem withPending_fvalid (q : List HostEvent) : (State.withPending q s).fvalid = s.fvalid := rfl
@[simp] theorem withPending_fields (q : List HostEvent) : (State.withPending q s).fields = s.fields := rfl
@[simp] theorem withPending_rxovr (q : List HostEvent) : (State.withPending q s).rxovr = s.rxovr := rfl
@[simp] theorem withPending_txop (q : List HostEvent) : (State.withPending q s).txop = s.txop := rfl
@[simp] theorem withPending_txarg (q : List HostEvent) : (State.withPending q s).txarg = s.txarg := rfl
@[simp] theorem withPending_txvalid (q : List HostEvent) : (State.withPending q s).txvalid = s.txvalid := rfl
@[simp] theorem withPending_illcmd (q : List HostEvent) : (State.withPending q s).illcmd = s.illcmd := rfl
@[simp] theorem withPending_badacc (q : List HostEvent) : (State.withPending q s).badacc = s.badacc := rfl
@[simp] theorem withPending_pending (q : List HostEvent) : (State.withPending q s).pending = q := rfl
@[simp] theorem withPending_returned (q : List HostEvent) : (State.withPending q s).returned = s.returned := rfl

@[simp] theorem following_rxbuf (es : List HostEvent) : (State.following es s).rxbuf = s.rxbuf := rfl
@[simp] theorem following_rxcnt (es : List HostEvent) : (State.following es s).rxcnt = s.rxcnt := rfl
@[simp] theorem following_result (es : List HostEvent) : (State.following es s).result = s.result := rfl
@[simp] theorem following_fvalid (es : List HostEvent) : (State.following es s).fvalid = s.fvalid := rfl
@[simp] theorem following_fields (es : List HostEvent) : (State.following es s).fields = s.fields := rfl
@[simp] theorem following_rxovr (es : List HostEvent) : (State.following es s).rxovr = s.rxovr := rfl
@[simp] theorem following_txop (es : List HostEvent) : (State.following es s).txop = s.txop := rfl
@[simp] theorem following_txarg (es : List HostEvent) : (State.following es s).txarg = s.txarg := rfl
@[simp] theorem following_txvalid (es : List HostEvent) : (State.following es s).txvalid = s.txvalid := rfl
@[simp] theorem following_illcmd (es : List HostEvent) : (State.following es s).illcmd = s.illcmd := rfl
@[simp] theorem following_badacc (es : List HostEvent) : (State.following es s).badacc = s.badacc := rfl
@[simp] theorem following_returned (es : List HostEvent) : (State.following es s).returned = s.returned := rfl
@[simp] theorem following_pending (es : List HostEvent) : (State.following es s).pending = es ++ s.pending := rfl

@[simp] theorem storeByte_rxbuf (b : Byte) : (State.storeByte b s).rxbuf = Memory.write s.rxbuf s.rxcnt.toNat b := rfl
@[simp] theorem storeByte_rxcnt (b : Byte) : (State.storeByte b s).rxcnt = s.rxcnt + 1#6 := rfl
@[simp] theorem storeByte_result (b : Byte) : (State.storeByte b s).result = s.result := rfl
@[simp] theorem storeByte_fvalid (b : Byte) : (State.storeByte b s).fvalid = s.fvalid := rfl
@[simp] theorem storeByte_fields (b : Byte) : (State.storeByte b s).fields = s.fields := rfl
@[simp] theorem storeByte_rxovr (b : Byte) : (State.storeByte b s).rxovr = s.rxovr := rfl
@[simp] theorem storeByte_txop (b : Byte) : (State.storeByte b s).txop = s.txop := rfl
@[simp] theorem storeByte_txarg (b : Byte) : (State.storeByte b s).txarg = s.txarg := rfl
@[simp] theorem storeByte_txvalid (b : Byte) : (State.storeByte b s).txvalid = s.txvalid := rfl
@[simp] theorem storeByte_illcmd (b : Byte) : (State.storeByte b s).illcmd = s.illcmd := rfl
@[simp] theorem storeByte_badacc (b : Byte) : (State.storeByte b s).badacc = s.badacc := rfl
@[simp] theorem storeByte_pending (b : Byte) : (State.storeByte b s).pending = s.pending := rfl
@[simp] theorem storeByte_returned (b : Byte) : (State.storeByte b s).returned = s.returned := rfl

@[simp] theorem latch_rxbuf (m : Measurement) : (State.latch m s).rxbuf = s.rxbuf := rfl
@[simp] theorem latch_rxcnt (m : Measurement) : (State.latch m s).rxcnt = s.rxcnt := rfl
@[simp] theorem latch_result (m : Measurement) : (State.latch m s).result = .ok := rfl
@[simp] theorem latch_fvalid (m : Measurement) : (State.latch m s).fvalid = true := rfl
@[simp] theorem latch_fields (m : Measurement) : (State.latch m s).fields = m := rfl
@[simp] theorem latch_rxovr (m : Measurement) : (State.latch m s).rxovr = s.rxovr := rfl
@[simp] theorem latch_txop (m : Measurement) : (State.latch m s).txop = s.txop := rfl
@[simp] theorem latch_txarg (m : Measurement) : (State.latch m s).txarg = s.txarg := rfl
@[simp] theorem latch_txvalid (m : Measurement) : (State.latch m s).txvalid = s.txvalid := rfl
@[simp] theorem latch_illcmd (m : Measurement) : (State.latch m s).illcmd = s.illcmd := rfl
@[simp] theorem latch_badacc (m : Measurement) : (State.latch m s).badacc = s.badacc := rfl
@[simp] theorem latch_pending (m : Measurement) : (State.latch m s).pending = s.pending := rfl
@[simp] theorem latch_returned (m : Measurement) : (State.latch m s).returned = s.returned := rfl

@[simp] theorem loadTx_rxbuf (op a : Byte) : (State.loadTx op a s).rxbuf = s.rxbuf := rfl
@[simp] theorem loadTx_rxcnt (op a : Byte) : (State.loadTx op a s).rxcnt = s.rxcnt := rfl
@[simp] theorem loadTx_result (op a : Byte) : (State.loadTx op a s).result = s.result := rfl
@[simp] theorem loadTx_fvalid (op a : Byte) : (State.loadTx op a s).fvalid = s.fvalid := rfl
@[simp] theorem loadTx_fields (op a : Byte) : (State.loadTx op a s).fields = s.fields := rfl
@[simp] theorem loadTx_rxovr (op a : Byte) : (State.loadTx op a s).rxovr = s.rxovr := rfl
@[simp] theorem loadTx_txop (op a : Byte) : (State.loadTx op a s).txop = op := rfl
@[simp] theorem loadTx_txarg (op a : Byte) : (State.loadTx op a s).txarg = a := rfl
@[simp] theorem loadTx_txvalid (op a : Byte) : (State.loadTx op a s).txvalid = true := rfl
@[simp] theorem loadTx_illcmd (op a : Byte) : (State.loadTx op a s).illcmd = s.illcmd := rfl
@[simp] theorem loadTx_badacc (op a : Byte) : (State.loadTx op a s).badacc = s.badacc := rfl
@[simp] theorem loadTx_pending (op a : Byte) : (State.loadTx op a s).pending = s.pending := rfl
@[simp] theorem loadTx_returned (op a : Byte) : (State.loadTx op a s).returned = s.returned := rfl

@[simp] theorem clearRx_rxbuf : (clearRx s).rxbuf = s.rxbuf := rfl
@[simp] theorem clearRx_rxcnt : (clearRx s).rxcnt = 0#6 := rfl
@[simp] theorem clearRx_result : (clearRx s).result = .none := rfl
@[simp] theorem clearRx_fvalid : (clearRx s).fvalid = s.fvalid := rfl
@[simp] theorem clearRx_fields : (clearRx s).fields = s.fields := rfl
@[simp] theorem clearRx_rxovr : (clearRx s).rxovr = false := rfl
@[simp] theorem clearRx_txop : (clearRx s).txop = s.txop := rfl
@[simp] theorem clearRx_txarg : (clearRx s).txarg = s.txarg := rfl
@[simp] theorem clearRx_txvalid : (clearRx s).txvalid = s.txvalid := rfl
@[simp] theorem clearRx_illcmd : (clearRx s).illcmd = s.illcmd := rfl
@[simp] theorem clearRx_badacc : (clearRx s).badacc = s.badacc := rfl
@[simp] theorem clearRx_pending : (clearRx s).pending = s.pending := rfl
@[simp] theorem clearRx_returned : (clearRx s).returned = s.returned := rfl

@[simp] theorem resetBlock_rxbuf : (resetBlock s).rxbuf = [] := rfl
@[simp] theorem resetBlock_rxcnt : (resetBlock s).rxcnt = 0#6 := rfl
@[simp] theorem resetBlock_result : (resetBlock s).result = .none := rfl
@[simp] theorem resetBlock_fvalid : (resetBlock s).fvalid = false := rfl
@[simp] theorem resetBlock_fields : (resetBlock s).fields = Measurement.zero := rfl
@[simp] theorem resetBlock_rxovr : (resetBlock s).rxovr = false := rfl
@[simp] theorem resetBlock_txop : (resetBlock s).txop = 0x00#8 := rfl
@[simp] theorem resetBlock_txarg : (resetBlock s).txarg = 0x00#8 := rfl
@[simp] theorem resetBlock_txvalid : (resetBlock s).txvalid = false := rfl
@[simp] theorem resetBlock_illcmd : (resetBlock s).illcmd = false := rfl
@[simp] theorem resetBlock_badacc : (resetBlock s).badacc = false := rfl
@[simp] theorem resetBlock_pending : (resetBlock s).pending = s.pending := rfl
@[simp] theorem resetBlock_returned : (resetBlock s).returned = none := rfl

@[simp] theorem withFetchWord_rxbuf (nbits w : Nat) : (State.withFetchWord s nbits w).rxbuf = s.rxbuf := rfl
@[simp] theorem withFetchWord_rxcnt (nbits w : Nat) : (State.withFetchWord s nbits w).rxcnt = s.rxcnt := rfl
@[simp] theorem withFetchWord_result (nbits w : Nat) : (State.withFetchWord s nbits w).result = s.result := rfl
@[simp] theorem withFetchWord_fvalid (nbits w : Nat) : (State.withFetchWord s nbits w).fvalid = s.fvalid := rfl
@[simp] theorem withFetchWord_fields (nbits w : Nat) : (State.withFetchWord s nbits w).fields = s.fields := rfl
@[simp] theorem withFetchWord_rxovr (nbits w : Nat) : (State.withFetchWord s nbits w).rxovr = s.rxovr := rfl
@[simp] theorem withFetchWord_txop (nbits w : Nat) : (State.withFetchWord s nbits w).txop = s.txop := rfl
@[simp] theorem withFetchWord_txarg (nbits w : Nat) : (State.withFetchWord s nbits w).txarg = s.txarg := rfl
@[simp] theorem withFetchWord_txvalid (nbits w : Nat) : (State.withFetchWord s nbits w).txvalid = s.txvalid := rfl
@[simp] theorem withFetchWord_illcmd (nbits w : Nat) : (State.withFetchWord s nbits w).illcmd = s.illcmd := rfl
@[simp] theorem withFetchWord_badacc (nbits w : Nat) : (State.withFetchWord s nbits w).badacc = s.badacc := rfl
@[simp] theorem withFetchWord_pending (nbits w : Nat) : (State.withFetchWord s nbits w).pending = .issue (tableBytes nbits w) :: s.pending := rfl
@[simp] theorem withFetchWord_returned (nbits w : Nat) : (State.withFetchWord s nbits w).returned = s.returned := rfl

@[simp] theorem issue_rxbuf (e : HostEvent) : (State.issue e s).rxbuf = s.rxbuf := rfl
@[simp] theorem issue_rxcnt (e : HostEvent) : (State.issue e s).rxcnt = s.rxcnt := rfl
@[simp] theorem issue_result (e : HostEvent) : (State.issue e s).result = s.result := rfl
@[simp] theorem issue_fvalid (e : HostEvent) : (State.issue e s).fvalid = s.fvalid := rfl
@[simp] theorem issue_fields (e : HostEvent) : (State.issue e s).fields = s.fields := rfl
@[simp] theorem issue_rxovr (e : HostEvent) : (State.issue e s).rxovr = s.rxovr := rfl
@[simp] theorem issue_txop (e : HostEvent) : (State.issue e s).txop = s.txop := rfl
@[simp] theorem issue_txarg (e : HostEvent) : (State.issue e s).txarg = s.txarg := rfl
@[simp] theorem issue_txvalid (e : HostEvent) : (State.issue e s).txvalid = s.txvalid := rfl
@[simp] theorem issue_illcmd (e : HostEvent) : (State.issue e s).illcmd = s.illcmd := rfl
@[simp] theorem issue_badacc (e : HostEvent) : (State.issue e s).badacc = s.badacc := rfl
@[simp] theorem issue_pending (e : HostEvent) : (State.issue e s).pending = s.pending ++ [e] := rfl
@[simp] theorem issue_returned (e : HostEvent) : (State.issue e s).returned = s.returned := rfl

@[simp] theorem report_startByteMismatch_rxbuf : (report .startByteMismatch s).rxbuf = s.rxbuf := rfl
@[simp] theorem report_startByteMismatch_rxcnt : (report .startByteMismatch s).rxcnt = s.rxcnt := rfl
@[simp] theorem report_startByteMismatch_result : (report .startByteMismatch s).result = .startMismatch := rfl
@[simp] theorem report_startByteMismatch_fvalid : (report .startByteMismatch s).fvalid = s.fvalid := rfl
@[simp] theorem report_startByteMismatch_fields : (report .startByteMismatch s).fields = s.fields := rfl
@[simp] theorem report_startByteMismatch_rxovr : (report .startByteMismatch s).rxovr = s.rxovr := rfl
@[simp] theorem report_startByteMismatch_txop : (report .startByteMismatch s).txop = s.txop := rfl
@[simp] theorem report_startByteMismatch_txarg : (report .startByteMismatch s).txarg = s.txarg := rfl
@[simp] theorem report_startByteMismatch_txvalid : (report .startByteMismatch s).txvalid = s.txvalid := rfl
@[simp] theorem report_startByteMismatch_illcmd : (report .startByteMismatch s).illcmd = s.illcmd := rfl
@[simp] theorem report_startByteMismatch_badacc : (report .startByteMismatch s).badacc = s.badacc := rfl
@[simp] theorem report_startByteMismatch_pending : (report .startByteMismatch s).pending = s.pending := rfl
@[simp] theorem report_startByteMismatch_returned : (report .startByteMismatch s).returned = s.returned := rfl

@[simp] theorem report_checksumMismatch_rxbuf : (report .checksumMismatch s).rxbuf = s.rxbuf := rfl
@[simp] theorem report_checksumMismatch_rxcnt : (report .checksumMismatch s).rxcnt = s.rxcnt := rfl
@[simp] theorem report_checksumMismatch_result : (report .checksumMismatch s).result = .checksumMismatch := rfl
@[simp] theorem report_checksumMismatch_fvalid : (report .checksumMismatch s).fvalid = s.fvalid := rfl
@[simp] theorem report_checksumMismatch_fields : (report .checksumMismatch s).fields = s.fields := rfl
@[simp] theorem report_checksumMismatch_rxovr : (report .checksumMismatch s).rxovr = s.rxovr := rfl
@[simp] theorem report_checksumMismatch_txop : (report .checksumMismatch s).txop = s.txop := rfl
@[simp] theorem report_checksumMismatch_txarg : (report .checksumMismatch s).txarg = s.txarg := rfl
@[simp] theorem report_checksumMismatch_txvalid : (report .checksumMismatch s).txvalid = s.txvalid := rfl
@[simp] theorem report_checksumMismatch_illcmd : (report .checksumMismatch s).illcmd = s.illcmd := rfl
@[simp] theorem report_checksumMismatch_badacc : (report .checksumMismatch s).badacc = s.badacc := rfl
@[simp] theorem report_checksumMismatch_pending : (report .checksumMismatch s).pending = s.pending := rfl
@[simp] theorem report_checksumMismatch_returned : (report .checksumMismatch s).returned = s.returned := rfl

@[simp] theorem report_incomplete_rxbuf : (report .incomplete s).rxbuf = s.rxbuf := rfl
@[simp] theorem report_incomplete_rxcnt : (report .incomplete s).rxcnt = s.rxcnt := rfl
@[simp] theorem report_incomplete_result : (report .incomplete s).result = .incomplete := rfl
@[simp] theorem report_incomplete_fvalid : (report .incomplete s).fvalid = s.fvalid := rfl
@[simp] theorem report_incomplete_fields : (report .incomplete s).fields = s.fields := rfl
@[simp] theorem report_incomplete_rxovr : (report .incomplete s).rxovr = s.rxovr := rfl
@[simp] theorem report_incomplete_txop : (report .incomplete s).txop = s.txop := rfl
@[simp] theorem report_incomplete_txarg : (report .incomplete s).txarg = s.txarg := rfl
@[simp] theorem report_incomplete_txvalid : (report .incomplete s).txvalid = s.txvalid := rfl
@[simp] theorem report_incomplete_illcmd : (report .incomplete s).illcmd = s.illcmd := rfl
@[simp] theorem report_incomplete_badacc : (report .incomplete s).badacc = s.badacc := rfl
@[simp] theorem report_incomplete_pending : (report .incomplete s).pending = s.pending := rfl
@[simp] theorem report_incomplete_returned : (report .incomplete s).returned = s.returned := rfl

@[simp] theorem report_receiveOverrun_rxbuf : (report .receiveOverrun s).rxbuf = s.rxbuf := rfl
@[simp] theorem report_receiveOverrun_rxcnt : (report .receiveOverrun s).rxcnt = s.rxcnt := rfl
@[simp] theorem report_receiveOverrun_result : (report .receiveOverrun s).result = s.result := rfl
@[simp] theorem report_receiveOverrun_fvalid : (report .receiveOverrun s).fvalid = s.fvalid := rfl
@[simp] theorem report_receiveOverrun_fields : (report .receiveOverrun s).fields = s.fields := rfl
@[simp] theorem report_receiveOverrun_rxovr : (report .receiveOverrun s).rxovr = true := rfl
@[simp] theorem report_receiveOverrun_txop : (report .receiveOverrun s).txop = s.txop := rfl
@[simp] theorem report_receiveOverrun_txarg : (report .receiveOverrun s).txarg = s.txarg := rfl
@[simp] theorem report_receiveOverrun_txvalid : (report .receiveOverrun s).txvalid = s.txvalid := rfl
@[simp] theorem report_receiveOverrun_illcmd : (report .receiveOverrun s).illcmd = s.illcmd := rfl
@[simp] theorem report_receiveOverrun_badacc : (report .receiveOverrun s).badacc = s.badacc := rfl
@[simp] theorem report_receiveOverrun_pending : (report .receiveOverrun s).pending = s.pending := rfl
@[simp] theorem report_receiveOverrun_returned : (report .receiveOverrun s).returned = s.returned := rfl

@[simp] theorem report_illegalCommand_rxbuf : (report .illegalCommand s).rxbuf = s.rxbuf := rfl
@[simp] theorem report_illegalCommand_rxcnt : (report .illegalCommand s).rxcnt = s.rxcnt := rfl
@[simp] theorem report_illegalCommand_result : (report .illegalCommand s).result = s.result := rfl
@[simp] theorem report_illegalCommand_fvalid : (report .illegalCommand s).fvalid = s.fvalid := rfl
@[simp] theorem report_illegalCommand_fields : (report .illegalCommand s).fields = s.fields := rfl
@[simp] theorem report_illegalCommand_rxovr : (report .illegalCommand s).rxovr = s.rxovr := rfl
@[simp] theorem report_illegalCommand_txop : (report .illegalCommand s).txop = s.txop := rfl
@[simp] theorem report_illegalCommand_txarg : (report .illegalCommand s).txarg = s.txarg := rfl
@[simp] theorem report_illegalCommand_txvalid : (report .illegalCommand s).txvalid = s.txvalid := rfl
@[simp] theorem report_illegalCommand_illcmd : (report .illegalCommand s).illcmd = true := rfl
@[simp] theorem report_illegalCommand_badacc : (report .illegalCommand s).badacc = s.badacc := rfl
@[simp] theorem report_illegalCommand_pending : (report .illegalCommand s).pending = s.pending := rfl
@[simp] theorem report_illegalCommand_returned : (report .illegalCommand s).returned = s.returned := rfl

@[simp] theorem report_illegalAccess_rxbuf : (report .illegalAccess s).rxbuf = s.rxbuf := rfl
@[simp] theorem report_illegalAccess_rxcnt : (report .illegalAccess s).rxcnt = s.rxcnt := rfl
@[simp] theorem report_illegalAccess_result : (report .illegalAccess s).result = s.result := rfl
@[simp] theorem report_illegalAccess_fvalid : (report .illegalAccess s).fvalid = s.fvalid := rfl
@[simp] theorem report_illegalAccess_fields : (report .illegalAccess s).fields = s.fields := rfl
@[simp] theorem report_illegalAccess_rxovr : (report .illegalAccess s).rxovr = s.rxovr := rfl
@[simp] theorem report_illegalAccess_txop : (report .illegalAccess s).txop = s.txop := rfl
@[simp] theorem report_illegalAccess_txarg : (report .illegalAccess s).txarg = s.txarg := rfl
@[simp] theorem report_illegalAccess_txvalid : (report .illegalAccess s).txvalid = s.txvalid := rfl
@[simp] theorem report_illegalAccess_illcmd : (report .illegalAccess s).illcmd = s.illcmd := rfl
@[simp] theorem report_illegalAccess_badacc : (report .illegalAccess s).badacc = true := rfl
@[simp] theorem report_illegalAccess_pending : (report .illegalAccess s).pending = s.pending := rfl
@[simp] theorem report_illegalAccess_returned : (report .illegalAccess s).returned = s.returned := rfl

end Sys2Proof.Machine
end

