-- ==== Sys2Proof/Laws/Ops.lean ====
section
/-! SUPPORT. What each shared operation can do, said once; the provers cite these instead of unfolding. -/

namespace Sys2Proof.Machine

/-- Everything `PUSH` can do (R87). -/
theorem pushByte_cases (b : Byte) (s : State) :
    (s.rxcnt.toNat < 32 ∧ pushByte b s = State.storeByte b s) ∨
      (¬ s.rxcnt.toNat < 32 ∧ pushByte b s = report .receiveOverrun s) := by
  unfold pushByte mframeLen
  split
  · exact .inl ⟨‹_›, rfl⟩
  · exact .inr ⟨‹_›, rfl⟩

/-- Everything `VALIDATE` can do (R132). -/
theorem validateBuffer_cases (s : State) :
    (s.rxcnt ≠ 32#6 ∧ validateBuffer s = report .incomplete s) ∨
      (s.rxcnt = 32#6 ∧ sofOk (rxByte s 0) (rxByte s 1) = false ∧
        validateBuffer s = report .startByteMismatch s) ∨
      (s.rxcnt = 32#6 ∧ sofOk (rxByte s 0) (rxByte s 1) = true ∧
        sum16 (rxBytes s 30) ≠ be16 (rxByte s 30) (rxByte s 31) ∧
        validateBuffer s = report .checksumMismatch s) ∨
      (s.rxcnt = 32#6 ∧ sofOk (rxByte s 0) (rxByte s 1) = true ∧
        sum16 (rxBytes s 30) = be16 (rxByte s 30) (rxByte s 31) ∧
        validateBuffer s = State.latch (Measurement.ofFn fun k => memRead2 s (4 + 2 * k.val)) s) := by
  unfold validateBuffer
  by_cases h1 : s.rxcnt = 32#6
  · cases h2 : sofOk (rxByte s 0) (rxByte s 1)
    · simp [h1]
    · by_cases h3 : sum16 (rxBytes s 30) = be16 (rxByte s 30) (rxByte s 31)
      · simp [h1, h3]
      · simp [h1, h3]
  · simp [h1]

/-- A report changes no buffer byte. -/
@[simp] theorem rxByte_report (c : ErrorCause) (s : State) (i : Nat) : rxByte (report c s) i = rxByte s i := by
  cases c <;> rfl

@[simp] theorem rxByte_returning (v : Option U16) (s : State) (i : Nat) :
    rxByte (State.returning v s) i = rxByte s i := rfl

@[simp] theorem rxByte_following (es : List HostEvent) (s : State) (i : Nat) :
    rxByte (State.following es s) i = rxByte s i := rfl

@[simp] theorem rxByte_latch (m : Measurement) (s : State) (i : Nat) : rxByte (State.latch m s) i = rxByte s i := rfl

@[simp] theorem rxByte_loadTx (op a : Byte) (s : State) (i : Nat) :
    rxByte (State.loadTx op a s) i = rxByte s i := rfl

@[simp] theorem rxByte_clearRx (s : State) (i : Nat) : rxByte (clearRx s) i = rxByte s i := rfl

@[simp] theorem rxByte_withPending (q : List HostEvent) (s : State) (i : Nat) :
    rxByte (State.withPending q s) i = rxByte s i := rfl

@[simp] theorem rxByte_resetBlock (s : State) (i : Nat) : rxByte (resetBlock s) i = 0x00#8 := rfl

/-- One more byte of the buffer's beginning. -/
theorem rxBytes_succ (s : State) (n : Nat) : rxBytes s (n + 1) = rxBytes s n ++ [rxByte s n] := by
  simp [rxBytes, List.range_succ]

/-- The beginning of the buffer depends on its bytes alone. -/
theorem rxBytes_congr {s t : State} (n : Nat) (h : ∀ i, i < n → rxByte t i = rxByte s i) :
    rxBytes t n = rxBytes s n := by
  simp only [rxBytes]
  exact List.map_congr_left fun i hi => h i (List.mem_range.mp hi)

@[simp] theorem byteAt_rxBytes (s : State) {n i : Nat} (h : i < n) : byteAt (rxBytes s n) i = rxByte s i := by
  simp [byteAt, rxBytes, h]

theorem rxcnt_storeByte_toNat (b : Byte) (s : State) (h : s.rxcnt.toNat < 32) :
    (State.storeByte b s).rxcnt.toNat = s.rxcnt.toNat + 1 := by
  simp only [storeByte_rxcnt, BitVec.toNat_add]
  simp only [BitVec.toNat_ofNat]
  omega

/-- Pushing bytes while there is room: what the buffer holds, the count, and that nothing else moves. -/
theorem pushAll_spec (B : List Byte) (s : State) (h : s.rxcnt.toNat + B.length ≤ 32) :
    let t := B.foldl (fun t b => pushByte b t) s
    t.rxcnt.toNat = s.rxcnt.toNat + B.length ∧
    (∀ i, rxByte t i = if s.rxcnt.toNat ≤ i ∧ i < s.rxcnt.toNat + B.length then byteAt B (i - s.rxcnt.toNat)
      else rxByte s i) ∧
    t.result = s.result ∧ t.fvalid = s.fvalid ∧ t.fields = s.fields ∧ t.rxovr = s.rxovr ∧ t.txop = s.txop ∧
    t.txarg = s.txarg ∧ t.txvalid = s.txvalid ∧ t.illcmd = s.illcmd ∧ t.badacc = s.badacc ∧
    t.pending = s.pending ∧ t.returned = s.returned := by
  induction B generalizing s with
  | nil => simp
  | cons b rest ih =>
    have hlt : s.rxcnt.toNat < 32 := by simp only [List.length_cons] at h; omega
    have hp : pushByte b s = State.storeByte b s := by
      rcases pushByte_cases b s with ⟨_, h'⟩ | ⟨h', _⟩
      · exact h'
      · exact absurd hlt h'
    have hc := rxcnt_storeByte_toNat b s hlt
    have h' := ih (State.storeByte b s) (by rw [hc]; simp only [List.length_cons] at h; omega)
    simp only [List.foldl_cons, hp]
    obtain ⟨h1, h2, h3⟩ := h'
    refine ⟨by rw [h1, hc]; simp only [List.length_cons]; omega, ?_, h3⟩
    intro i
    rw [h2, hc, rxByte_storeByte]
    simp only [List.length_cons]
    by_cases hi : i = s.rxcnt.toNat
    · subst hi; simp [show ¬ s.rxcnt.toNat + 1 ≤ s.rxcnt.toNat by omega]
    · by_cases hr : s.rxcnt.toNat + 1 ≤ i ∧ i < s.rxcnt.toNat + 1 + rest.length
      · have e : i - s.rxcnt.toNat = (i - (s.rxcnt.toNat + 1)) + 1 := by omega
        rw [if_pos hr, if_pos (by omega), e, byteAt_cons_succ]
      · rw [if_neg hr, if_neg hi, if_neg (by omega)]

/-- Every instruction answers a next state. -/
theorem exec_next (i : Instr) (s : State) : ∃ t, exec i s = .next t := by
  cases i <;> exact ⟨_, rfl⟩

/-- Everything one step can do when it answers a next state. -/
theorem step_cases {s t : State} (h : step s = .next t) :
    (s.pending = [] ∧ t = s) ∨
      (∃ rest, s.pending = .hardReset :: rest ∧ t = resetBlock (State.withPending rest s)) ∨
      (∃ rest, s.pending = .readOutcome :: rest ∧ t = readOutcome (State.withPending rest s)) ∨
      (∃ B rest i, s.pending = .issue B :: rest ∧ decode B = .op i ∧
        exec i (State.withPending rest s) = .next t) ∨
      (∃ B rest x, s.pending = .issue B :: rest ∧ decode B = .illegal x ∧
        t = performIllegal x (State.withPending rest s)) := by
  unfold step fetch at h
  cases hp : s.pending with
  | nil => simp only [hp] at h; exact .inl ⟨rfl, by cases h; rfl⟩
  | cons e rest =>
    cases e with
    | hardReset => simp only [hp] at h; exact .inr (.inl ⟨rest, rfl, by cases h; rfl⟩)
    | readOutcome => simp only [hp] at h; exact .inr (.inr (.inl ⟨rest, rfl, by cases h; rfl⟩))
    | issue B =>
      simp only [hp] at h
      cases hd : decode B with
      | op i => simp only [hd] at h; exact .inr (.inr (.inr (.inl ⟨B, rest, i, rfl, hd, h⟩)))
      | illegal x => simp only [hd] at h; exact .inr (.inr (.inr (.inr ⟨B, rest, x, rfl, hd, by cases h; rfl⟩)))
      | refused e => simp only [hd] at h; cases h

end Sys2Proof.Machine
end

