-- ==== Sys2Proof/Laws/PerInstr.lean ====
section
/-! SUPPORT. A family of statements, one per instruction: how many bytes its encoding has (30_encoding.md R59). -/

namespace Sys2Proof.Laws

/-- The length of each row's format: three bytes for `ACC`, seven for `CFRAME`, thirty-two for `MFRAME` (R59). -/
def rowBytes : Instr → Nat
  | .rxclr => 3
  | .validate => 3
  | .softrst => 3
  | .push _ => 3
  | .encMode _ => 3
  | .encRead _ => 3
  | .encSleep _ => 3
  | .rdStatus => 3
  | .rdRxcnt => 3
  | .rdRxsum => 3
  | .rdField0 => 3
  | .rdField1 => 3
  | .rdField2 => 3
  | .rdField3 => 3
  | .rdField4 => 3
  | .rdField5 => 3
  | .rdField6 => 3
  | .rdField7 => 3
  | .rdField8 => 3
  | .rdField9 => 3
  | .rdField10 => 3
  | .rdField11 => 3
  | .rdTxbyte0 => 3
  | .rdTxbyte1 => 3
  | .rdTxbyte2 => 3
  | .rdTxbyte3 => 3
  | .rdTxbyte4 => 3
  | .rdTxbyte5 => 3
  | .rdTxbyte6 => 3
  | .cframeChangeMode _ _ => 7
  | .cframeRequestReadPassive _ _ => 7
  | .cframeSetSleep _ _ => 7
  | .mframe _ _ _ _ => 32

/-- The encoder writes exactly the bytes of the row's format. -/
def EncodeLength.Statement (i : Instr) : Prop := (encode i).length = rowBytes i

theorem EncodeLength.rxclr : EncodeLength.Statement (.rxclr) := rfl
theorem EncodeLength.validate : EncodeLength.Statement (.validate) := rfl
theorem EncodeLength.softrst : EncodeLength.Statement (.softrst) := rfl
theorem EncodeLength.push (b : Byte) : EncodeLength.Statement (.push b) := rfl
theorem EncodeLength.encMode (a : Byte) : EncodeLength.Statement (.encMode a) := rfl
theorem EncodeLength.encRead (a : Byte) : EncodeLength.Statement (.encRead a) := rfl
theorem EncodeLength.encSleep (a : Byte) : EncodeLength.Statement (.encSleep a) := rfl
theorem EncodeLength.rdStatus : EncodeLength.Statement (.rdStatus) := rfl
theorem EncodeLength.rdRxcnt : EncodeLength.Statement (.rdRxcnt) := rfl
theorem EncodeLength.rdRxsum : EncodeLength.Statement (.rdRxsum) := rfl
theorem EncodeLength.rdField0 : EncodeLength.Statement (.rdField0) := rfl
theorem EncodeLength.rdField1 : EncodeLength.Statement (.rdField1) := rfl
theorem EncodeLength.rdField2 : EncodeLength.Statement (.rdField2) := rfl
theorem EncodeLength.rdField3 : EncodeLength.Statement (.rdField3) := rfl
theorem EncodeLength.rdField4 : EncodeLength.Statement (.rdField4) := rfl
theorem EncodeLength.rdField5 : EncodeLength.Statement (.rdField5) := rfl
theorem EncodeLength.rdField6 : EncodeLength.Statement (.rdField6) := rfl
theorem EncodeLength.rdField7 : EncodeLength.Statement (.rdField7) := rfl
theorem EncodeLength.rdField8 : EncodeLength.Statement (.rdField8) := rfl
theorem EncodeLength.rdField9 : EncodeLength.Statement (.rdField9) := rfl
theorem EncodeLength.rdField10 : EncodeLength.Statement (.rdField10) := rfl
theorem EncodeLength.rdField11 : EncodeLength.Statement (.rdField11) := rfl
theorem EncodeLength.rdTxbyte0 : EncodeLength.Statement (.rdTxbyte0) := rfl
theorem EncodeLength.rdTxbyte1 : EncodeLength.Statement (.rdTxbyte1) := rfl
theorem EncodeLength.rdTxbyte2 : EncodeLength.Statement (.rdTxbyte2) := rfl
theorem EncodeLength.rdTxbyte3 : EncodeLength.Statement (.rdTxbyte3) := rfl
theorem EncodeLength.rdTxbyte4 : EncodeLength.Statement (.rdTxbyte4) := rfl
theorem EncodeLength.rdTxbyte5 : EncodeLength.Statement (.rdTxbyte5) := rfl
theorem EncodeLength.rdTxbyte6 : EncodeLength.Statement (.rdTxbyte6) := rfl
theorem EncodeLength.cframeChangeMode (a : Byte) (chk : U16) : EncodeLength.Statement (.cframeChangeMode a chk) := rfl
theorem EncodeLength.cframeRequestReadPassive (a : Byte) (chk : U16) : EncodeLength.Statement (.cframeRequestReadPassive a chk) := rfl
theorem EncodeLength.cframeSetSleep (a : Byte) (chk : U16) : EncodeLength.Statement (.cframeSetSleep a chk) := rfl
theorem EncodeLength.mframe (len : U16) (m : Measurement) (trailer : U16) (chk : U16) : EncodeLength.Statement (.mframe len m trailer chk) := rfl

end Sys2Proof.Laws
end

