-- ==== Sys2Proof/Laws/Runs.lean ====
section
/-! SUPPORT. Runs of several steps: how a run is cut into its steps, and what the read that ends a reception leaves. -/

namespace Sys2Proof.Machine

open Sys2Proof.Safety

/-- The step that performs a pending instruction. -/
theorem step_issue {s : State} {B : List Byte} {rest : List HostEvent} {i : Instr}
    (hp : s.pending = .issue B :: rest) (hd : decode B = .op i) : step s = exec i (State.withPending rest s) := by
  simp only [step, fetch, hp, hd]

theorem runFor_succ {s t : State} (k : Nat) (h : step s = .next t) :
    runFor (k + 1) s = (runFor k t).map fun r => (r.1, t.returned.toList ++ r.2) := by
  simp only [runFor, h]

theorem runFor_add (a b : Nat) (s : State) :
    runFor (a + b) s = (runFor a s).bind fun p => (runFor b p.1).map fun q => (q.1, p.2 ++ q.2) := by
  induction a generalizing s with
  | zero => simp only [Nat.zero_add, runFor, Option.bind]; cases runFor b s <;> simp
  | succ k ih =>
    rw [Nat.add_right_comm]
    cases h : step s with
    | next t =>
      rw [runFor_succ _ h, runFor_succ _ h, ih]
      cases runFor k t with
      | none => rfl
      | some p => simp only [Option.map, Option.bind]; cases runFor b p.1 <;> simp
    | fault f => cases f
    | refused x => simp [runFor, h]

/-- The outcome code in `STATUS` is that of `RESULT`. -/
@[simp] theorem outcomeCode_statusWord (s : State) : outcomeCode (statusWord s) = s.result.code := by
  unfold outcomeCode statusWord
  exact BitVec.extractLsb'_append_eq_right

/-- All that `readOutcome` does: `STATUS` is returned, and after `OK` the twelve field reads come next. -/
theorem readOutcome_eq (s : State) :
    readOutcome s = State.withPending ((if s.result = .ok then accessesOf rdfields else []) ++ s.pending)
      (State.returning (some (statusWord s)) s) := by
  unfold readOutcome
  rw [outcomeCode_statusWord]
  cases s.result <;> rfl

/-- A push leaves the host's queue and the record of reads out of account. -/
theorem pushByte_withPending_returning (b : Byte) (q : List HostEvent) (v : Option U16) (s : State) :
    pushByte b (State.withPending q (State.returning v s)) = State.withPending q (State.returning v (pushByte b s)) := by
  unfold pushByte
  simp only [returning_rxcnt, withPending_rxcnt]
  by_cases h : s.rxcnt.toNat < mframeLen <;> simp only [h, if_true, if_false] <;> rfl

/-- So does `VALIDATE`. -/
theorem validateBuffer_withPending_returning (q : List HostEvent) (v : Option U16) (s : State) :
    validateBuffer (State.withPending q (State.returning v s)) =
      State.withPending q (State.returning v (validateBuffer s)) := by
  unfold validateBuffer
  show (if s.rxcnt ≠ 32#6 then _ else if (!sofOk (rxByte s 0) (rxByte s 1)) = true then _
    else if sum16 (rxBytes s 30) ≠ be16 (rxByte s 30) (rxByte s 31) then _ else _) = _
  split
  · rfl
  · split
    · rfl
    · split <;> rfl

end Sys2Proof.Machine
end

