-- ==== Sys2Proof/Tests/Slice0.lean ====
section
/-! SUPPORT. Tests. Every expected value is from spec/95_test_vectors.md or worked out by hand from the rule named; the
words are written from 30_encoding.md R60 to R67. The theorems named witness_ show states and operands that meet the
hypotheses of a statement. -/

namespace Sys2Proof.Tests

open Sys2Proof Sys2Proof.Machine Sys2Proof.Safety

/-! ### Frames of 95_test_vectors.md and small states -/

/-- The first thirty bytes of frame `EX`. -/
def exBody : List Byte :=
  [0x42#8, 0x4D#8, 0x00#8, 0x1C#8, 0x00#8, 0x0A#8, 0x00#8, 0x14#8, 0x00#8, 0x1E#8, 0x00#8, 0x28#8, 0x00#8,
  0x32#8, 0x00#8, 0x3C#8, 0x00#8, 0x05#8, 0x00#8, 0x0A#8, 0x00#8, 0x0F#8, 0x00#8, 0x14#8, 0x00#8, 0x19#8,
  0x00#8, 0x1E#8, 0x00#8, 0x00#8]

/-- Frame `EX`. -/
def ex : List Byte := exBody ++ [0x01#8, 0xE6#8]

/-- Frame `EXP`, the example as printed: its checksum is wrong (90_conflicts.md C2). -/
def exp : List Byte := exBody ++ [0x03#8, 0x3C#8]

/-- Frame `M2`. -/
def m2 : List Byte :=
  [0x42#8, 0x4D#8, 0x00#8, 0x1C#8, 0x12#8, 0x34#8, 0xFF#8, 0xFF#8, 0x01#8, 0x00#8, 0x00#8, 0x01#8, 0x80#8,
  0x00#8, 0x7F#8, 0xFF#8, 0x00#8, 0xFF#8, 0xFF#8, 0x00#8, 0xAB#8, 0xCD#8, 0x42#8, 0x4D#8, 0xE1#8, 0xE2#8,
  0x00#8, 0x00#8, 0x00#8, 0x00#8, 0x0A#8, 0xB7#8]

/-- `EX` and `EXP` as the transport's `read(32)` returns them, and `EX` with a wrong first byte. -/
def exFrame : Vector Byte 32 := ⟨ex.toArray, rfl⟩
def expFrame : Vector Byte 32 := ⟨exp.toArray, rfl⟩
def badStart : Vector Byte 32 := ⟨(0x43#8 :: ex.tail).toArray, rfl⟩

/-- The Measurement of `EX`. -/
def exM : Measurement :=
  { f0 := 10#16, f1 := 20#16, f2 := 30#16, f3 := 40#16, f4 := 50#16, f5 := 60#16
    f6 := 5#16, f7 := 10#16, f8 := 15#16, f9 := 20#16, f10 := 25#16, f11 := 30#16 }

/-- The Measurement of `M2`. -/
def m2M : Measurement :=
  { f0 := 0x1234#16, f1 := 0xFFFF#16, f2 := 0x0100#16, f3 := 0x0001#16, f4 := 0x8000#16, f5 := 0x7FFF#16
    f6 := 0x00FF#16, f7 := 0xFF00#16, f8 := 0xABCD#16, f9 := 0x424D#16, f10 := 0xE1E2#16, f11 := 0x0000#16 }

/-- Bytes loaded after reset. -/
def loaded (B : List Byte) : State := loadBytes B State.reset

/-- Bytes loaded and validated after reset. -/
def judged (B : List Byte) : State := validateBuffer (loaded B)

/-- A state that waits to perform an access. -/
def asked (B : List Byte) (s : State) : State := { s with pending := [.issue B] }

/-- A state the count alone matters of. -/
def counted (c : Count) : State := { State.reset with rxcnt := c }

/-- The fields kept, a flag of each kind up. -/
def worn : State :=
  { State.reset with fvalid := true, fields := m2M, txop := 0xE1#8, txarg := 0x01#8, txvalid := true
                     illcmd := true, badacc := true }

/-- The state a step or an operation leaves, `s` itself where it leaves none. -/
def after (o : Host.Outcome State Fault Refusal) (s : State) : State :=
  match o with
  | .next t => t
  | .fault _ => s
  | .refused _ => s

/-! ### WellFormed: each check refuses -/

theorem test_wf_accepts_set_passive : (Instr.cframeChangeMode 0x00#8 0x0170#16).wellFormed = true := by decide
theorem test_wf_refuses_changeMode : (Instr.cframeChangeMode 0x00#8 0x0171#16).wellFormed = false := by decide
theorem test_wf_refuses_requestRead : (Instr.cframeRequestReadPassive 0x00#8 0x0170#16).wellFormed = false := by
  decide
theorem test_wf_refuses_setSleep : (Instr.cframeSetSleep 0x01#8 0x0173#16).wellFormed = false := by decide
theorem test_wf_accepts_ex : (Instr.mframe 28#16 exM 0#16 0x01E6#16).wellFormed = true := by decide
theorem test_wf_refuses_exp : (Instr.mframe 28#16 exM 0#16 0x033C#16).wellFormed = false := by decide

/-! ### Decoding: a word of every row -/

theorem test_decode_rxclr : decode [0x80#8, 0xFF#8, 0x01#8] = .op .rxclr := by decide
theorem test_decode_validate : decode [0x80#8, 0x00#8, 0x02#8] = .op .validate := by decide
theorem test_decode_softrst : decode [0x80#8, 0xAA#8, 0x03#8] = .op .softrst := by decide
theorem test_decode_push : decode [0x82#8, 0xAB#8, 0x42#8] = .op (.push 0x42#8) := by decide
theorem test_decode_encMode : decode [0x85#8, 0xE1#8, 0x01#8] = .op (.encMode 0x01#8) := by decide
theorem test_decode_encRead : decode [0x85#8, 0xE2#8, 0x00#8] = .op (.encRead 0x00#8) := by decide
theorem test_decode_encSleep : decode [0x85#8, 0xE4#8, 0xFF#8] = .op (.encSleep 0xFF#8) := by decide
theorem test_decode_rdStatus : decode [0x01#8, 0x12#8, 0x34#8] = .op .rdStatus := by decide
theorem test_decode_rdRxcnt : decode [0x03#8, 0x00#8, 0x00#8] = .op .rdRxcnt := by decide
theorem test_decode_rdRxsum : decode [0x04#8, 0x00#8, 0x00#8] = .op .rdRxsum := by decide
theorem test_decode_rdField0 : decode [0x10#8, 0x00#8, 0x00#8] = .op .rdField0 := by decide
theorem test_decode_rdField1 : decode [0x11#8, 0x00#8, 0x00#8] = .op .rdField1 := by decide
theorem test_decode_rdField2 : decode [0x12#8, 0x00#8, 0x00#8] = .op .rdField2 := by decide
theorem test_decode_rdField3 : decode [0x13#8, 0x00#8, 0x00#8] = .op .rdField3 := by decide
theorem test_decode_rdField4 : decode [0x14#8, 0x00#8, 0x00#8] = .op .rdField4 := by decide
theorem test_decode_rdField5 : decode [0x15#8, 0x00#8, 0x00#8] = .op .rdField5 := by decide
theorem test_decode_rdField6 : decode [0x16#8, 0x00#8, 0x00#8] = .op .rdField6 := by decide
theorem test_decode_rdField7 : decode [0x17#8, 0x00#8, 0x00#8] = .op .rdField7 := by decide
theorem test_decode_rdField8 : decode [0x18#8, 0x00#8, 0x00#8] = .op .rdField8 := by decide
theorem test_decode_rdField9 : decode [0x19#8, 0x00#8, 0x00#8] = .op .rdField9 := by decide
theorem test_decode_rdField10 : decode [0x1A#8, 0x00#8, 0x00#8] = .op .rdField10 := by decide
theorem test_decode_rdField11 : decode [0x1B#8, 0x00#8, 0x00#8] = .op .rdField11 := by decide
theorem test_decode_rdTxbyte0 : decode [0x20#8, 0x00#8, 0x00#8] = .op .rdTxbyte0 := by decide
theorem test_decode_rdTxbyte1 : decode [0x21#8, 0x00#8, 0x00#8] = .op .rdTxbyte1 := by decide
theorem test_decode_rdTxbyte2 : decode [0x22#8, 0x00#8, 0x00#8] = .op .rdTxbyte2 := by decide
theorem test_decode_rdTxbyte3 : decode [0x23#8, 0x00#8, 0x00#8] = .op .rdTxbyte3 := by decide
theorem test_decode_rdTxbyte4 : decode [0x24#8, 0x00#8, 0x00#8] = .op .rdTxbyte4 := by decide
theorem test_decode_rdTxbyte5 : decode [0x25#8, 0x00#8, 0x00#8] = .op .rdTxbyte5 := by decide
theorem test_decode_rdTxbyte6 : decode [0x26#8, 0x00#8, 0x00#8] = .op .rdTxbyte6 := by decide
theorem test_decode_changeMode : decode [0x42#8, 0x4D#8, 0xE1#8, 0x00#8, 0x01#8, 0x01#8, 0x71#8] = .op (.cframeChangeMode 0x01#8 0x0171#16) := by
  decide
theorem test_decode_requestRead : decode [0x42#8, 0x4D#8, 0xE2#8, 0x00#8, 0x00#8, 0x01#8, 0x71#8] = .op (.cframeRequestReadPassive 0x00#8 0x0171#16) := by
  decide
theorem test_decode_setSleep : decode [0x42#8, 0x4D#8, 0xE4#8, 0x00#8, 0x00#8, 0x01#8, 0x73#8] = .op (.cframeSetSleep 0x00#8 0x0173#16) := by
  decide
theorem test_decode_mframe_ex : decode ex = .op (.mframe 28#16 exM 0#16 0x01E6#16) := by decide +kernel
theorem test_decode_mframe_m2 : decode m2 = .op (.mframe 28#16 m2M 0#16 0x0AB7#16) := by decide

/-! What is no row: R61 lines 4, 9 and 15, R73, R66 (`0xE3`), other lengths. -/

theorem test_decode_cmd_zero : decode [0x80#8, 0x01#8, 0x00#8] = .illegal (.command 0x00#8) := by decide
theorem test_decode_cmd_four : decode [0x80#8, 0x01#8, 0x04#8] = .illegal (.command 0x04#8) := by decide
theorem test_decode_txreq_e3 : decode [0x85#8, 0xE3#8, 0x01#8] = .illegal (.opcode 0xE3#8 0x01#8) := by decide
theorem test_decode_read_cmd : decode [0x00#8, 0x00#8, 0x00#8] = .illegal (.read 0x00#6) := by decide
theorem test_decode_read_reserved : decode [0x3F#8, 0x00#8, 0x00#8] = .illegal (.read 0x3F#6) := by decide
theorem test_decode_write_status : decode [0x81#8, 0x03#8, 0xFF#8] = .illegal (.write 0x01#6 0x03FF#16) := by decide
theorem test_decode_bit22 : decode [0x42#8, 0x00#8, 0x00#8] = .refused .bit22Set := by decide
theorem test_decode_cframe_e3 : decode [0x42#8, 0x4D#8, 0xE3#8, 0x00#8, 0x00#8, 0x01#8, 0x72#8] = .refused .notACommandFrame := by
  decide
theorem test_decode_cframe_arg_hi : decode [0x42#8, 0x4D#8, 0xE1#8, 0x01#8, 0x00#8, 0x01#8, 0x71#8] = .refused .notACommandFrame := by
  decide
theorem test_decode_mframe_start : decode (0x43#8 :: ex.tail) = .refused .notAMeasurementFrame := by decide
theorem test_decode_nothing : decode [] = .refused (.unknownLength 0) := by decide

/-! ### The host's two definitions, and steps of accesses that are no row -/

theorem test_tableWord_push : decodeTableWord 24 0x8200AB = some (.push 0xAB#8) := by decide
theorem test_tableWord_setSleep : decodeTableWord 56 0x424DE400010174 = some (.cframeSetSleep 0x01#8 0x0174#16) := by
  decide
theorem test_withFetchWord_runs :
    step (State.reset.withFetchWord 24 0x85E401) = exec (.encSleep 0x01#8) State.reset := rfl
theorem test_step_bit22 : step (asked [0x42#8, 0x00#8, 0x00#8] worn) = .refused (.notAnAccess .bit22Set) := rfl
/-- 40_access_and_buffer.md R100. -/
theorem test_step_illegal_read :
    step (asked [0x07#8, 0x00#8, 0x00#8] State.reset) =
      .next { State.reset with badacc := true, returned := some 0x0000#16 } := rfl
/-- 40_access_and_buffer.md R99. -/
theorem test_step_illegal_command :
    step (asked [0x80#8, 0x00#8, 0x00#8] State.reset) = .next { State.reset with illcmd := true } := rfl

/-! ### One operation each. Vectors of 95_test_vectors.md, sections 1 to 3, unless a rule is named. -/

/-- R88: the reception goes, the fields, the transmit side and the sticky flags stay. -/
theorem test_exec_rxclr :
    exec .rxclr { worn with rxcnt := 32#6, result := .ok, rxovr := true } = .next worn := rfl
/-- R88: a partial buffer. -/
theorem test_exec_rxclr_sum : rxSum (after (exec .rxclr (loaded [0x42#8, 0x4D#8])) worn) = 0x0000#16 := by decide
/-- Section 1.1: `EX` is accepted with `STATUS = 0x0039`. -/
theorem test_exec_validate_ok :
    let t := after (exec .validate (loaded ex)) worn
    t.fields = exM ∧ statusWord t = 0x0039#16 := by decide +kernel
/-- Section 1.2: `EXP` is rejected with `STATUS = 0x0033` and no field written. -/
theorem test_exec_validate_mismatch :
    let t := after (exec .validate (loaded exp)) worn
    t.fields = Measurement.zero ∧ statusWord t = 0x0033#16 := by decide +kernel
/-- R89. -/
theorem test_exec_softrst : exec .softrst worn = .next State.reset := rfl
/-- R87: the byte stands at offset `RXCNT`. -/
theorem test_exec_push :
    let t := after (exec (.push 0x4D#8) (loaded [0x42#8])) worn
    t.rxcnt = 2#6 ∧ rxByte t 1 = 0x4D#8 ∧ statusWord t = 0x0020#16 := by decide
/-- R87: a full buffer keeps its bytes. -/
theorem test_exec_push_full : exec (.push 0x00#8) (counted 32#6) = .next { counted 32#6 with rxovr := true } := rfl
/-- R144: `SET_PASSIVE`. -/
theorem test_exec_encMode :
    txFrame (after (exec (.encMode 0x00#8) worn) worn) =
      [0x42#8, 0x4D#8, 0xE1#8, 0x00#8, 0x00#8, 0x01#8, 0x70#8] := by decide
/-- R145, R152: the argument goes into the frame as given; its sum is `0x0270` by hand. -/
theorem test_exec_encRead :
    txFrame (after (exec (.encRead 0xFF#8) worn) worn) =
      [0x42#8, 0x4D#8, 0xE2#8, 0x00#8, 0xFF#8, 0x02#8, 0x70#8] := by decide
/-- R146: `WAKE`. -/
theorem test_exec_encSleep :
    txFrame (after (exec (.encSleep 0x01#8) worn) worn) =
      [0x42#8, 0x4D#8, 0xE4#8, 0x00#8, 0x01#8, 0x01#8, 0x74#8] := by decide
/-- R19: every flag of `worn`, and `RESULT` 4. -/
theorem test_exec_rdStatus :
    exec .rdStatus { worn with result := .incomplete } =
      .next { worn with result := .incomplete, returned := some 0x038C#16 } := rfl
/-- R90, R24: an overrun of a full buffer that does not start with the start bytes. -/
theorem test_exec_rdStatus_overrun :
    exec .rdStatus { counted 32#6 with rxovr := true } =
      .next { counted 32#6 with rxovr := true, returned := some 0x0050#16 } := rfl
theorem test_exec_rdRxcnt : exec .rdRxcnt (counted 32#6) = .next { counted 32#6 with returned := some 0x0020#16 } := rfl
/-- Section 1.1: the checksum bytes are not summed. -/
theorem test_exec_rdRxsum : (after (exec .rdRxsum (loaded ex)) worn).returned = some 0x01E6#16 := by decide +kernel
/-- Section 1.1, after four bytes. -/
theorem test_exec_rdRxsum_four :
    (after (exec .rdRxsum (loaded (exBody.take 4))) worn).returned = some 0x00AB#16 := by decide
theorem test_exec_rdField0 : exec .rdField0 worn = .next { worn with returned := some 0x1234#16 } := rfl
theorem test_exec_rdField1 : exec .rdField1 worn = .next { worn with returned := some 0xFFFF#16 } := rfl
theorem test_exec_rdField2 : exec .rdField2 worn = .next { worn with returned := some 0x0100#16 } := rfl
theorem test_exec_rdField3 : exec .rdField3 worn = .next { worn with returned := some 0x0001#16 } := rfl
theorem test_exec_rdField4 : exec .rdField4 worn = .next { worn with returned := some 0x8000#16 } := rfl
theorem test_exec_rdField5 : exec .rdField5 worn = .next { worn with returned := some 0x7FFF#16 } := rfl
theorem test_exec_rdField6 : exec .rdField6 worn = .next { worn with returned := some 0x00FF#16 } := rfl
theorem test_exec_rdField7 : exec .rdField7 worn = .next { worn with returned := some 0xFF00#16 } := rfl
theorem test_exec_rdField8 : exec .rdField8 worn = .next { worn with returned := some 0xABCD#16 } := rfl
theorem test_exec_rdField9 : exec .rdField9 worn = .next { worn with returned := some 0x424D#16 } := rfl
theorem test_exec_rdField10 : exec .rdField10 worn = .next { worn with returned := some 0xE1E2#16 } := rfl
theorem test_exec_rdField11 : exec .rdField11 worn = .next { worn with returned := some 0x0000#16 } := rfl
theorem test_exec_rdTxbyte0 : exec .rdTxbyte0 worn = .next { worn with returned := some 0x0042#16 } := rfl
theorem test_exec_rdTxbyte1 : exec .rdTxbyte1 worn = .next { worn with returned := some 0x004D#16 } := rfl
theorem test_exec_rdTxbyte2 : exec .rdTxbyte2 worn = .next { worn with returned := some 0x00E1#16 } := rfl
theorem test_exec_rdTxbyte3 : exec .rdTxbyte3 worn = .next { worn with returned := some 0x0000#16 } := rfl
theorem test_exec_rdTxbyte4 : exec .rdTxbyte4 worn = .next { worn with returned := some 0x0001#16 } := rfl
theorem test_exec_rdTxbyte5 : exec .rdTxbyte5 worn = .next { worn with returned := some 0x0001#16 } := rfl
theorem test_exec_rdTxbyte6 : exec .rdTxbyte6 worn = .next { worn with returned := some 0x0071#16 } := rfl
/-- R77 and section 1.7, step 8: one access, and then the seven reads. -/
theorem test_exec_changeMode :
    exec (.cframeChangeMode 0x01#8 0x0171#16) State.reset =
      .next { State.reset with
        txop := 0xE1#8, txarg := 0x01#8, txvalid := true
        pending := [.issue [0x20#8, 0x00#8, 0x00#8], .issue [0x21#8, 0x00#8, 0x00#8], .issue [0x22#8, 0x00#8, 0x00#8],
          .issue [0x23#8, 0x00#8, 0x00#8], .issue [0x24#8, 0x00#8, 0x00#8], .issue [0x25#8, 0x00#8, 0x00#8],
          .issue [0x26#8, 0x00#8, 0x00#8]] } := rfl
theorem test_run_changeMode :
    (runFor 8 (asked [0x42#8, 0x4D#8, 0xE1#8, 0x00#8, 0x01#8, 0x01#8, 0x71#8] worn)).map Prod.snd =
      some [0x0042#16, 0x004D#16, 0x00E1#16, 0x0000#16, 0x0001#16, 0x0001#16, 0x0071#16] := by decide +kernel
/-- Section 1.7, step 4. -/
theorem test_run_requestRead :
    (runFor 8 (asked [0x42#8, 0x4D#8, 0xE2#8, 0x00#8, 0x00#8, 0x01#8, 0x71#8] worn)).map Prod.snd =
      some [0x0042#16, 0x004D#16, 0x00E2#16, 0x0000#16, 0x0000#16, 0x0001#16, 0x0071#16] := by decide +kernel
/-- Section 1.7, step 6. -/
theorem test_run_setSleep :
    (runFor 8 (asked [0x42#8, 0x4D#8, 0xE4#8, 0x00#8, 0x00#8, 0x01#8, 0x73#8] worn)).map Prod.snd =
      some [0x0042#16, 0x004D#16, 0x00E4#16, 0x0000#16, 0x0000#16, 0x0001#16, 0x0073#16] := by decide +kernel
/-- Section 1.1: 35 accesses, the last of which returns `STATUS`, then the twelve fields. -/
theorem test_run_mframe_ex :
    (runFor 47 (asked ex State.reset)).map Prod.snd = some (0x0039#16 :: exM.toList) := by decide +kernel
/-- Section 1.2, after an earlier frame: `STATUS = 0x003B` and the earlier fields (the flags of `worn` beside); no field
is read, the block is idle after 35 accesses. -/
theorem test_run_mframe_exp :
    (runFor 36 (asked exp { worn with txvalid := false, illcmd := false, badacc := false })).map
      (fun r => (r.1.fields, r.1.pending, r.2.take 1)) = some (m2M, [], [0x003B#16]) := by decide +kernel

/-! ### Pure functions -/

/-- Section 2.1: the additions wrap. -/
theorem test_sum16_wraps : sum16 (List.replicate 257 0xFF#8 ++ [0x01#8]) = 0x0000#16 := by decide +kernel
/-- Section 2.2. -/
theorem test_sof_order : sofOk 0x4D#8 0x42#8 = false := by decide
/-- Section 2.2: the flip of bit 7 of byte 1. -/
theorem test_sof_flip : sofOk 0x42#8 0xCD#8 = false := by decide
/-- R122: the high byte first. -/
theorem test_be16 : be16 0x12#8 0x34#8 = 0x1234#16 := by decide
/-- Section 1.7, steps 2 to 5: passive after `set_mode(true)`, and after a `read_once` too. -/
theorem test_mode_persists :
    let d := { Driver.initial ⟨0⟩ with ctl := (setMode true ModeController.initial State.reset).1 }
    needsExplicitRequest ModeController.initial = false ∧
      needsExplicitRequest (readOnce (.done ()) (.done ()) (.done exFrame) d State.reset).driver.ctl = true := by decide +kernel
/-- Section 1.7, step 4: the request and the Measurement. -/
theorem test_read_once_passive :
    let r := readOnce (.done ()) (.done ()) (.done exFrame) { Driver.initial ⟨0⟩ with ctl := ⟨.passive, .awake⟩ } State.reset
    r.result = .measured exM ∧ r.request = [0x42#8, 0x4D#8, 0xE2#8, 0x00#8, 0x00#8, 0x01#8, 0x71#8] := by decide +kernel
/-- Section 1.7, step 11: an error, no request, the stored Measurement kept. -/
theorem test_read_once_active_error :
    let r := readOnce (.done ()) (.done ()) (.done expFrame) { Driver.initial ⟨0⟩ with stored := some exM } State.reset
    r.result = .error .checksumMismatch ∧ r.request = [] ∧ r.driver.stored = some exM := by decide +kernel

/-! ### Witnesses -/

theorem witness_DecodeEncodeRoundTrip :
    (Instr.cframeSetSleep 0x00#8 0x0173#16).wellFormed = true ∧ (Instr.mframe 28#16 exM 0#16 0x01E6#16).wellFormed = true ∧
      Instr.rdTxbyte6.wellFormed = true := by decide

theorem witness_AccessWordSpellsRowOfMatchAndMask :
    accRow .rxclr = some (0x800001#24, 0xFF00FF#24) ∧ accRow .rdTxbyte6 = some (0x260000#24, 0xFF0000#24) ∧
      decodeAcc 0x8200FF#24 = .op (.push 0xFF#8) ∧ decodeAcc 0x85E100#24 = .op (.encMode 0x00#8) ∧
      decodeAcc 0x85E201#24 = .op (.encRead 0x01#8) ∧ decodeAcc 0x85E4FF#24 = .op (.encSleep 0xFF#8) := by decide

theorem witness_Bit22SpellsNoAccess :
    (0x400000#24 : AccWord).getLsbD 22 = true ∧ (0xFFFFFF#24 : AccWord).getLsbD 22 = true ∧
      (asked (accBytes 0x400000#24) worn).pending = .issue (accBytes 0x400000#24) :: [] := by decide

theorem witness_FrameDecodingLosesNoByte :
    ([0x42#8, 0x4D#8, 0xE1#8, 0x00#8, 0x01#8, 0xFF#8, 0xFF#8] : List Byte).length = 7 ∧
      decode [0x42#8, 0x4D#8, 0xE1#8, 0x00#8, 0x01#8, 0xFF#8, 0xFF#8] = .op (.cframeChangeMode 0x01#8 0xFFFF#16) ∧
      exp.length = 32 ∧ decode exp = .op (.mframe 28#16 exM 0#16 0x033C#16) := by decide

theorem witness_ReservedBitsIgnoredAndReadZero :
    (0xAB01#16 : U16).toNat % 256 = (0x0001#16 : U16).toNat % 256 ∧ 0xAB01#16 ≠ 0x0001#16 ∧
      0x20 ≤ (0x20#6 : Idx).toNat ∧ (0x26#6 : Idx).toNat ≤ 0x26 := by decide

theorem witness_StepPerformsDecodedInstruction :
    ({ worn with pending := [.issue [0x10#8, 0x00#8, 0x00#8], .hardReset] } : State).pending =
        .issue [0x10#8, 0x00#8, 0x00#8] :: [.hardReset] ∧
      decode [0x10#8, 0x00#8, 0x00#8] = .op .rdField0 := by decide

theorem witness_LaterAccessesStayPending :
    exec .softrst { worn with pending := [.hardReset] } = .next { State.reset with pending := [.hardReset] } ∧
      accRow .softrst ≠ none ∧ accRow (.cframeSetSleep 0x00#8 0x0173#16) = none ∧
      ∃ t, exec (.cframeSetSleep 0x00#8 0x0173#16) { worn with pending := [.hardReset] } = .next t :=
  ⟨rfl, by decide, by decide, _, rfl⟩

/-- An access, a wire frame, a read of the outcome. -/
theorem witness_EachStepIsOneAccess :
    (asked [0x07#8, 0x00#8, 0x00#8] worn).pending = .issue [0x07#8, 0x00#8, 0x00#8] :: [] ∧
      HostEvent.issue [0x07#8, 0x00#8, 0x00#8] ≠ .hardReset ∧
      (∃ t, step (asked [0x07#8, 0x00#8, 0x00#8] worn) = .next t) ∧ (asked exp worn).pending = .issue exp :: [] ∧
      HostEvent.issue exp ≠ .hardReset ∧ (∃ t, step (asked exp worn) = .next t) ∧ HostEvent.readOutcome ≠ .hardReset ∧
      ∃ t, step { worn with pending := [.readOutcome] } = .next t :=
  ⟨rfl, by decide, ⟨_, rfl⟩, rfl, by decide, ⟨_, rfl⟩, by decide, _, rfl⟩

/-- A push into the first and the last free byte. -/
theorem witness_BufferChangesOnlyByPush_push :
    (∃ t, step (asked [0x82#8, 0x00#8, 0x42#8] (counted 0#6)) = .next t ∧ rxByte t 0 ≠ rxByte (counted 0#6) 0) ∧
      ∃ t, step (asked [0x82#8, 0x00#8, 0x42#8] (counted 31#6)) = .next t ∧ rxByte t 31 ≠ rxByte (counted 31#6) 31 :=
  ⟨⟨_, rfl, by decide⟩, _, rfl, by decide⟩

theorem witness_BufferChangesOnlyByPush_reset :
    ∃ t, step (asked [0x80#8, 0x00#8, 0x03#8] (loaded [0x42#8])) = .next t ∧ rxByte t 0 ≠ rxByte (loaded [0x42#8]) 0 :=
  ⟨_, rfl, by decide⟩

theorem witness_AccessStepsAsRegReadRegWrite :
    (asked (accBytes (accWord true 0x02#6 0x0042#16)) worn).pending =
        .issue (accBytes (accWord true 0x02#6 0x0042#16)) :: [] ∧
      accBytes (accWord false 0x3F#6 0xFFFF#16) = [0x3F#8, 0xFF#8, 0xFF#8] := by decide

/-- Codes next to the legal ones, on both sides, and one with reserved bits set. -/
theorem witness_IllegalCommandOnlySetsIllcmd :
    ((0x0000#16).toNat % 256 ≠ 1 ∧ (0x0000#16).toNat % 256 ≠ 2 ∧ (0x0000#16).toNat % 256 ≠ 3) ∧
      ((0x0004#16).toNat % 256 ≠ 1 ∧ (0x0004#16).toNat % 256 ≠ 2 ∧ (0x0004#16).toNat % 256 ≠ 3) ∧
      ((0x01FF#16).toNat % 256 ≠ 1 ∧ (0x01FF#16).toNat % 256 ≠ 2 ∧ (0x01FF#16).toNat % 256 ≠ 3) ∧
      (asked (accBytes (accWord true 0x00#6 0x0004#16)) worn).pending =
        .issue (accBytes (accWord true 0x00#6 0x0004#16)) :: [] := ⟨by decide, by decide, by decide, rfl⟩

/-- `0xE0`, `0xE3` and `0xE5` stand next to the legal opcodes. -/
theorem witness_IllegalOpcodeOnlySetsIllcmd :
    ((0xE0FF#16).toNat / 256 ≠ 0xE1 ∧ (0xE0FF#16).toNat / 256 ≠ 0xE2 ∧ (0xE0FF#16).toNat / 256 ≠ 0xE4) ∧
      ((0xE300#16).toNat / 256 ≠ 0xE1 ∧ (0xE300#16).toNat / 256 ≠ 0xE2 ∧ (0xE300#16).toNat / 256 ≠ 0xE4) ∧
      ((0xE500#16).toNat / 256 ≠ 0xE1 ∧ (0xE500#16).toNat / 256 ≠ 0xE2 ∧ (0xE500#16).toNat / 256 ≠ 0xE4) ∧
      (asked (accBytes (accWord true 0x05#6 0xE300#16)) worn).pending =
        .issue (accBytes (accWord true 0x05#6 0xE300#16)) :: [] := ⟨by decide, by decide, by decide, rfl⟩

/-- Every range of R100 at both ends. -/
theorem witness_IllegalAccessOnlySetsBadacc_read :
    (∀ idx ∈ ([0x00#6, 0x02#6, 0x05#6, 0x06#6, 0x0F#6, 0x1C#6, 0x1F#6, 0x27#6, 0x3F#6] : List Idx),
      IllegalToRead idx) ∧
      (asked (accBytes (accWord false 0x3F#6 0#16)) worn).pending =
        .issue (accBytes (accWord false 0x3F#6 0#16)) :: [] := ⟨by unfold IllegalToRead; decide +kernel, rfl⟩

/-- Every range of R100 at both ends. -/
theorem witness_IllegalAccessOnlySetsBadacc_write :
    (∀ idx ∈ ([0x01#6, 0x03#6, 0x04#6, 0x06#6, 0x0F#6, 0x10#6, 0x1B#6, 0x1C#6, 0x1F#6, 0x20#6, 0x26#6, 0x27#6,
      0x3F#6] : List Idx), IllegalToWrite idx) ∧
      (asked (accBytes (accWord true 0x10#6 7#16)) worn).pending =
        .issue (accBytes (accWord true 0x10#6 7#16)) :: [] := ⟨by unfold IllegalToWrite; decide +kernel, rfl⟩

/-- A legal index falls under neither. -/
theorem witness_legal_indices :
    (∀ idx ∈ ([0x01#6, 0x03#6, 0x04#6, 0x10#6, 0x1B#6, 0x20#6, 0x26#6] : List Idx), ¬ IllegalToRead idx) ∧
      ∀ idx ∈ ([0x00#6, 0x02#6, 0x05#6] : List Idx), ¬ IllegalToWrite idx := by
  unfold IllegalToRead IllegalToWrite; decide +kernel

theorem witness_IdleBlockKeepsItsState : worn.pending = [] := rfl

theorem witness_HardResetActsAsSoftrst :
    ({ worn with pending := [.hardReset] } : State).pending = .hardReset :: [] := rfl

/-- A state after an accepted frame, with the invariant, and a step from it. -/
theorem witness_StepKeepsInvariant :
    Inv (asked [0x82#8, 0x00#8, 0x00#8] (judged ex)) ∧
      ∃ t, step (asked [0x82#8, 0x00#8, 0x00#8] (judged ex)) = .next t :=
  ⟨{ buffer := by decide +kernel
     count := by decide +kernel
     judgedFull := by decide +kernel
     judgedOutcome := by decide +kernel
     okFields := by decide +kernel
     overrunFull := by decide +kernel
     txEncoded := by decide +kernel
     txEmpty := by decide +kernel
     noMeasurement := by decide +kernel
     emptyBuffer := by decide +kernel }, _, rfl⟩

theorem witness_SoftrstGivesResetValues :
    exec .softrst worn = .next State.reset ∧ worn.fvalid = true ∧ worn.txvalid = true ∧ worn.illcmd = true ∧
      worn.badacc = true ∧ State.reset.fvalid = false ∧ State.reset.txvalid = false ∧ State.reset.illcmd = false ∧
      State.reset.badacc = false := ⟨rfl, by decide⟩

theorem witness_ClearingKeepsAndResetZeroesBufferBytes :
    rxByte (loaded [0x42#8]) 0 = 0x42#8 ∧ (∃ t, exec .rxclr (loaded [0x42#8]) = .next t) ∧
      ∃ t, exec .softrst (loaded [0x42#8]) = .next t := ⟨by decide, ⟨_, rfl⟩, _, rfl⟩

/-- Both clauses of `PUSH` at their ends, and the counts where the views change; counts above 32 are states that no run
reaches. -/
theorem witness_PushStoresOrOverruns :
    (counted 0#6).rxcnt.toNat < 32 ∧ (counted 1#6).rxcnt.toNat < 32 ∧ (counted 29#6).rxcnt.toNat < 32 ∧
      (counted 30#6).rxcnt.toNat < 32 ∧ (counted 31#6).rxcnt.toNat < 32 ∧ 32 ≤ (counted 32#6).rxcnt.toNat ∧
      32 ≤ (counted 63#6).rxcnt.toNat := by decide

/-- Two states that differ in the byte at offset `RXCNT`. -/
theorem witness_StaleBytesAreUnobservable :
    AgreeUpToStale (asked [0x01#8, 0x00#8, 0x00#8] { loaded [0x42#8] with rxbuf := [(0, 0x42#8)] })
        (asked [0x01#8, 0x00#8, 0x00#8] { loaded [0x42#8] with rxbuf := [(0, 0x42#8), (1, 0x4D#8)] }) ∧
      ∃ t, step (asked [0x01#8, 0x00#8, 0x00#8] { loaded [0x42#8] with rxbuf := [(0, 0x42#8)] }) = .next t := by
  refine ⟨⟨fun off h => ?_, ?_⟩, _, rfl⟩
  · have : off = 0 := by
      have h1 : (loaded [0x42#8]).rxcnt.toNat = 1 := by decide
      simp only [asked] at h
      omega
    subst this; rfl
  · unfold TxSame StickySame; decide

/-- Each outcome is some state's. -/
theorem witness_ValidateOutcome :
    (judged [0x42#8]).result = .incomplete ∧ (judged (0x43#8 :: ex.tail)).result = .startMismatch ∧
      (judged exp).result = .checksumMismatch ∧ (judged ex).result = .ok := by decide +kernel

theorem witness_ValidateAgreesWithValidateAndStrip :
    (loaded ex).rxcnt = 32#6 ∧ validateAndStrip (rxBytes (loaded ex) 32) = .ok (slice ex 4 28) ∧
      (loaded exp).rxcnt = 32#6 ∧ validateAndStrip (rxBytes (loaded exp) 32) = .err .checksumMismatch := by
  decide +kernel

theorem witness_FailedValidateChangesOnlyResult :
    exec .validate worn = .next { worn with result := .incomplete } ∧ Result.incomplete ≠ .ok := ⟨rfl, by decide⟩

theorem witness_ValidateRepeats :
    (∃ t, exec .validate (loaded exp) = .next t) ∧ (loaded exp).rxcnt = 32#6 := ⟨⟨_, rfl⟩, by decide +kernel⟩

theorem witness_AcceptedFramesSumUp :
    ex.length = 32 ∧ validateAndStrip ex = .ok (slice ex 4 28) ∧ (judged ex).result = .ok := by decide +kernel

/-- The first and the last byte of either kind, the lowest and the highest bit. -/
theorem witness_SingleBitFlipsAreRejected :
    m2.length = 32 ∧ validateAndStrip m2 = .ok (slice m2 4 28) ∧ (0 < 32 ∧ 1 < 2 ∧ 2 < 32 ∧ ¬ 2 < 2 ∧ 31 < 32) ∧
      (0 < 8 ∧ 7 < 8) := by decide +kernel

theorem witness_ValidChecksumRange :
    ex.length = 32 ∧ byteAt ex 0 = 0x42#8 ∧ byteAt ex 1 = 0x4D#8 ∧ (0x008E#16 : U16).toNat < 0x008F ∧
      0x1C73 < (0x1C74#16 : U16).toNat ∧ received (ex.take 30 ++ [0x00#8, 0x8E#8]) = 0x008E#16 ∧
      received (ex.take 30 ++ [0x1C#8, 0x74#8]) = 0x1C74#16 ∧ validateAndStrip ex = .ok (slice ex 4 28) := by
  decide +kernel

theorem witness_ByteSumLaws :
    (List.replicate 257 0xFF#8).length ≤ 257 ∧ (List.replicate 30 0xFF#8).length ≤ 30 ∧
      (0x42#8 : Byte) ≠ 0x4D#8 := by decide +kernel

theorem witness_ByteSumLaws_perm : ([0x42#8, 0x4D#8] : List Byte).Perm [0x4D#8, 0x42#8] := .swap _ _ _

theorem witness_PermutedInteriorIsAccepted :
    ex.length = 32 ∧ validateAndStrip ex = .ok (slice ex 4 28) ∧ (slice ex 2 30).reverse.Perm (slice ex 2 30) :=
  ⟨by decide, by decide +kernel, List.reverse_perm _⟩

theorem witness_DecodeIsBijection :
    (slice ex 4 28).length = 24 ∧ decodePayload (slice ex 4 28) = decodePayload (slice exp 4 28) := by decide +kernel

theorem witness_ExtractIsDecodeOfPayload : m2.length = 32 := by decide

theorem witness_TransmitAndReceiveShareNoState :
    (∃ t, exec (.encRead 0x00#8) (judged ex) = .next t) ∧ (∃ t, exec (.encMode 0x00#8) (judged ex) = .next t) ∧
      (∃ t, exec (.encSleep 0x00#8) (judged ex) = .next t) ∧ (∃ t, exec (.push 0x00#8) worn = .next t) ∧
      (∃ t, exec .rxclr worn = .next t) ∧ ∃ t, exec .validate worn = .next t :=
  ⟨⟨_, rfl⟩, ⟨_, rfl⟩, ⟨_, rfl⟩, ⟨_, rfl⟩, ⟨_, rfl⟩, _, rfl⟩

theorem witness_CommandFrameRowsEncodeAndRead :
    (asked (encode (.cframeSetSleep 0x8D#8 0xFFFF#16)) worn).pending =
      .issue (encode (.cframeSetSleep 0x8D#8 0xFFFF#16)) :: [] := rfl

/-- Both branches of the measurement-frame statement. -/
theorem witness_MeasurementFrameRowLoadsAndValidates :
    (Instr.mframe 0xFFFF#16 m2M 0#16 0x0C99#16).wellFormed = true ∧
      ¬ (Instr.mframe 28#16 exM 0#16 0x033C#16).wellFormed = true ∧
      (asked (encode (.mframe 0xFFFF#16 m2M 0#16 0x0C99#16)) worn).pending =
        .issue (encode (.mframe 0xFFFF#16 m2M 0#16 0x0C99#16)) :: [] ∧
      (asked (encode (.mframe 28#16 exM 0#16 0x033C#16)) worn).pending =
        .issue (encode (.mframe 28#16 exM 0#16 0x033C#16)) :: [] := ⟨by decide, by decide, rfl, rfl⟩

theorem witness_StatusDecodesBack :
    5 ≤ (0x0035#16 : U16).toNat % 8 ∧ 5 ≤ (0x0036#16 : U16).toNat % 8 ∧ 5 ≤ (0x0037#16 : U16).toNat % 8 := by decide

theorem witness_ReadsHaveNoSideEffect : Instr.rdTxbyte6 ∈ readOps ∧ ∃ t, exec .rdTxbyte6 worn = .next t :=
  ⟨by decide, _, rfl⟩

/-- Each of the four flags falls in the hard reset; a softrst access is the other case of `ResetNext`. -/
theorem witness_FlagsFallOnlyAtReset :
    step { worn with pending := [.hardReset] } = .next State.reset ∧
      step (asked [0x80#8, 0x00#8, 0x03#8] worn) = .next State.reset ∧ worn.fvalid = true ∧ worn.txvalid = true ∧
      worn.illcmd = true ∧ worn.badacc = true ∧ State.reset.fvalid = false ∧ State.reset.txvalid = false ∧
      State.reset.illcmd = false ∧ State.reset.badacc = false := ⟨rfl, rfl, by decide⟩

theorem witness_FieldsChangeOnlyOnAcceptanceOrReset_reset :
    step (asked [0x80#8, 0x00#8, 0x03#8] worn) = .next State.reset ∧ State.reset.fields ≠ worn.fields :=
  ⟨rfl, by decide⟩

theorem witness_FieldsChangeOnlyOnAcceptanceOrReset_validate :
    ∃ t, step (asked [0x80#8, 0x00#8, 0x02#8] (loaded ex)) = .next t ∧ t.fields ≠ (loaded ex).fields :=
  ⟨_, rfl, by decide +kernel⟩

theorem witness_CountMovesOnlyByItsOperations_clear :
    (∃ t, step (asked [0x80#8, 0x00#8, 0x01#8] (counted 2#6)) = .next t ∧ t.rxcnt ≠ 2#6) ∧
      ∃ t, step (asked [0x80#8, 0x00#8, 0x03#8] (counted 2#6)) = .next t ∧ t.rxcnt ≠ 2#6 :=
  ⟨⟨_, rfl, by decide⟩, _, rfl, by decide⟩

theorem witness_CountMovesOnlyByItsOperations_push :
    (∃ t, step (asked [0x82#8, 0x00#8, 0x01#8] (counted 0#6)) = .next t ∧ t.rxcnt ≠ 0#6) ∧
      ∃ t, step (asked [0x82#8, 0x00#8, 0x01#8] (counted 31#6)) = .next t ∧ t.rxcnt ≠ 31#6 :=
  ⟨⟨_, rfl, by decide⟩, _, rfl, by decide⟩

theorem witness_CountMovesOnlyByItsOperations_mframe :
    ∃ t, step (asked exp (counted 32#6)) = .next t ∧ t.rxcnt ≠ 32#6 := ⟨_, rfl, by decide⟩

theorem witness_ReadOnceFollowsValidateAndStrip :
    validateAndStrip exFrame.toList = .ok (slice ex 4 28) ∧
      validateAndStrip expFrame.toList = .err .checksumMismatch ∧
      validateAndStrip badStart.toList = .err .startByteMismatch := by decide +kernel

/-- Each error of R170, in the call that raises it. -/
theorem witness_FailedReadOnceKeepsTheMeasurement :
    let d := { Driver.initial ⟨0⟩ with ctl := ⟨.passive, .asleep⟩, stored := some exM }
    (readOnce .timedOut (.done ()) (.done exFrame) d worn).result = .error .timeout ∧
      (readOnce (.done ()) .failed (.done exFrame) d worn).result = .error .transportError ∧
      (readOnce (.done ()) (.done ()) .failed d worn).result = .error .transportError ∧
      (readOnce (.done ()) (.done ()) (.done expFrame) d worn).result = .error .checksumMismatch ∧
      (readOnce (.done ()) (.done ()) (.done badStart) d worn).result = .error .startByteMismatch := by decide +kernel

/-- A host with two free transports, and a session whose one call fails. -/
theorem witness_TransportIsOwnedAndReleased :
    let h : HostState := { free := [⟨0⟩, ⟨1⟩], driver := none }
    (∃ g, h.acquire ⟨1⟩ = some g ∧ g.driver = some (Driver.initial ⟨1⟩)) ∧
      (⟨0⟩ : Transport) ≠ ⟨1⟩ ∧ h.driver = none ∧ (⟨1⟩ : Transport) ∈ h.free ∧
      (session ⟨1⟩ [.readOnce (.done ()) .timedOut .failed] h worn).map (fun r => (r.1, r.2.2)) =
        some ({ free := [⟨1⟩, ⟨0⟩], driver := none }, [.read (.error .timeout)]) :=
  ⟨⟨_, rfl, rfl⟩, by decide, rfl, by decide, by decide⟩

end Sys2Proof.Tests
end

