-- ==== Sys2Proof/Proofs/ReservedBits.lean ====
section
/-! PROOF. Reserved bits (10_state.md R37): a write of `CMD` or `RXDATA` looks at its low byte only, and what a read
returns stays below the first bit that no field occupies. -/

namespace Sys2Proof.Machine

/-! ### The low byte, and the reach of a value -/

theorem lo8_toNat (v : U16) : (lo8 v).toNat = v.toNat % 256 := by
  simp [lo8, BitVec.extractLsb'_toNat]

theorem lo8_eq_of_mod_eq {v v' : U16} (h : v.toNat % 256 = v'.toNat % 256) : lo8 v = lo8 v' :=
  BitVec.eq_of_toNat_eq (by rw [lo8_toNat, lo8_toNat, h])

theorem zext16_toNat_lt (b : Byte) : (zext16 b).toNat < 2 ^ 8 := by
  rw [zext16, BitVec.toNat_setWidth_of_le (by decide)]
  exact b.isLt

/-- A concatenation reaches as far as its high part does, moved up by the width of the low part. -/
theorem toNat_append_lt {m n k : Nat} {x : BitVec m} (h : x.toNat < 2 ^ k) (y : BitVec n) :
    (x ++ y).toNat < 2 ^ (k + n) := by
  rw [BitVec.toNat_append]
  exact Nat.or_lt_two_pow (by rw [Nat.shiftLeft_eq, Nat.pow_add]; exact Nat.mul_lt_mul_of_pos_right h (by positivity))
    (y.isLt.trans_le (Nat.pow_le_pow_right (by decide) (Nat.le_add_left n k)))

/-- R19: six zero bits stand above the ten bits of the fields. -/
theorem statusWord_toNat_lt (s : State) : (statusWord s).toNat < 2 ^ 10 := by
  have zeros : (0b000000#6).toNat < 2 ^ 0 := by decide
  exact toNat_append_lt (toNat_append_lt (toNat_append_lt (toNat_append_lt (toNat_append_lt (toNat_append_lt
    (toNat_append_lt (toNat_append_lt zeros _) _) _) _) _) _) _) s.result.code

/-! ### The two registers with reserved bits on write (R86) -/

theorem regWrite_cmd_congr {v v' : U16} (h : lo8 v = lo8 v') (s : State) :
    regWrite idxCmd v s = regWrite idxCmd v' s := by
  simp only [regWrite, if_pos, h]

theorem regWrite_rxdata (v : U16) (s : State) : regWrite idxRxdata v s = pushByte (lo8 v) s := rfl

theorem regWrite_rxdata_congr {v v' : U16} (h : lo8 v = lo8 v') (s : State) :
    regWrite idxRxdata v s = regWrite idxRxdata v' s := by
  rw [regWrite_rxdata, regWrite_rxdata, h]

/-! ### The registers with reserved bits on read (R85) -/

theorem regRead_status (s : State) : regRead idxStatus s = (s, statusWord s) := rfl

theorem regRead_rxcnt (s : State) : regRead idxRxcnt s = (s, s.rxcnt.setWidth 16) := rfl

theorem regRead_txbyte {idx : Idx} (hlo : 0x20 ≤ idx.toNat) (hhi : idx.toNat ≤ 0x26) (s : State) :
    regRead idx s = (s, txByte s (idx.toNat - 0x20)) := by
  have other (i : Idx) (hi : i.toNat < 0x20) : idx ≠ i := by rintro rfl; omega
  have notField : ¬ (0x10 ≤ idx.toNat ∧ idx.toNat ≤ 0x1B) := by omega
  rw [regRead, if_neg (other idxStatus (by decide)), if_neg (other idxRxcnt (by decide)),
    if_neg (other idxRxsum (by decide)), if_neg notField, if_pos ⟨hlo, hhi⟩]

/-- Settles O6, register by register: two writes of `CMD` or `RXDATA` with the same low byte are one write, and each
value read is bounded by the bits its fields occupy. -/
theorem reservedBitsIgnoredAndReadZero : Obligations.ReservedBitsIgnoredAndReadZero := by
  refine ⟨fun idx v v' hidx hv s => ?_, fun s => ⟨?status, ?rxcnt, fun idx hlo hhi => ?txbyte⟩⟩
  · have hlow : lo8 v = lo8 v' := lo8_eq_of_mod_eq hv
    have hwrite : regWrite idx v s = regWrite idx v' s := by
      obtain rfl | rfl := hidx
      · exact regWrite_cmd_congr hlow s
      · exact regWrite_rxdata_congr hlow s
    simp only [access, if_true, hwrite]
  case status =>
    change (regRead idxStatus s).2.toNat < 2 ^ 10
    rw [regRead_status]
    exact statusWord_toNat_lt s
  case rxcnt =>
    change (regRead idxRxcnt s).2.toNat < 2 ^ 6
    rw [regRead_rxcnt, BitVec.toNat_setWidth_of_le (by decide)]
    exact s.rxcnt.isLt
  case txbyte =>
    rw [regRead_txbyte hlo hhi]
    exact zext16_toNat_lt _

end Sys2Proof.Machine
end

