-- ==== Sys2Proof/Proofs/Bit22.lean ====
section
/-! PROOF. Bit 22 (30_encoding.md R73): the three bytes of an access word spell that word again, so that the decoder's
test of bit 22 is a test of the word the host meant, and a step passes on the decoder's refusal. -/

namespace Sys2Proof.Machine

/-- Three bytes, most significant first, hold the whole word (R60). -/
theorem accBytes_append (w : AccWord) :
    w.extractLsb' 16 8 ++ w.extractLsb' 8 8 ++ w.extractLsb' 0 8 = w := by
  have hhigh : w.extractLsb' 16 8 ++ w.extractLsb' 8 8 = w.extractLsb' 8 16 :=
    BitVec.extractLsb'_append_extractLsb'_eq_extractLsb' (show 16 = 8 + 8 by rfl)
  rw [hhigh]
  exact BitVec.extractLsb'_append_extractLsb' (w := 16) (len := 8)

/-- The decoder judges the bytes of an access word by the word itself. -/
theorem decode_accBytes (w : AccWord) : decode (accBytes w) = decodeAcc w := by
  have hthree : decode (accBytes w) =
      decodeAcc (w.extractLsb' 16 8 ++ w.extractLsb' 8 8 ++ w.extractLsb' 0 8) := rfl
  rw [hthree, accBytes_append]

/-- The first line of R61's decoder. -/
theorem decodeAcc_bit22 {w : AccWord} (h : w.getLsbD 22 = true) : decodeAcc w = .refused .bit22Set :=
  if_pos h

/-- The step that finds bytes pending which the decoder refuses: the refusal keeps its name. -/
theorem step_issue_refused {s : State} {B : List Byte} {rest : List HostEvent} {e : DecodeError}
    (hp : s.pending = .issue B :: rest) (hd : decode B = .refused e) : step s = .refused (.notAnAccess e) := by
  simp only [step, fetch, hp, hd]

/-- Settles O4: the decoder reads back the word with bit 22 set and refuses it, and the step follows the decoder. -/
theorem bit22SpellsNoAccess : Obligations.Bit22SpellsNoAccess := by
  intro w h
  have hrefused : decode (accBytes w) = .refused .bit22Set := (decode_accBytes w).trans (decodeAcc_bit22 h)
  exact ⟨hrefused, fun _ _ hp => step_issue_refused hp hrefused⟩

end Sys2Proof.Machine
end

