-- ==== Sys2Proof/Proofs/AccessWords.lean ====
section
/-! PROOF. Access words (30_encoding.md R60, R61): what the decoder makes of a written access word, field by field, and
what a step performs of it. -/

namespace Sys2Proof.Machine

/-! ### The fields of a written access word (R60) -/

/-- Bit by bit: `DATA`, then `IDX`, then the zero of bit 22, then `W`. -/
theorem getLsbD_accWord (wr : Bool) (idx : Idx) (data : U16) (i : Nat) :
    (accWord wr idx data).getLsbD i =
      if i < 16 then data.getLsbD i else if i < 22 then idx.getLsbD (i - 16) else decide (i = 23) && wr := by
  change BitVec.getLsbD (w := 1 + 1 + 6 + 16) (BitVec.ofBool wr ++ 0#1 ++ idx ++ data) i = _
  simp only [BitVec.getLsbD_append]
  by_cases hdata : i < 16
  · rw [if_pos hdata, if_pos hdata]
  by_cases hidx : i < 22
  · rw [if_neg hdata, if_neg hdata, if_pos (by omega), if_pos hidx]
  by_cases hzero : i = 22
  · subst hzero
    rfl
  · rw [if_neg hdata, if_neg hdata, if_neg (by omega), if_neg hidx, if_neg (by omega), BitVec.getLsbD_ofBool]
    simp only [show i - 16 - 6 - 1 = 0 ↔ i = 23 by omega]

@[simp] theorem accW_accWord (wr : Bool) (idx : Idx) (data : U16) : accW (accWord wr idx data) = wr := by
  rw [accW, getLsbD_accWord]
  rfl

@[simp] theorem accBit22_accWord (wr : Bool) (idx : Idx) (data : U16) : accBit22 (accWord wr idx data) = false := by
  rw [accBit22, getLsbD_accWord]
  rfl

@[simp] theorem accIdx_accWord (wr : Bool) (idx : Idx) (data : U16) : accIdx (accWord wr idx data) = idx := by
  ext i hi
  rw [accIdx, BitVec.getElem_extractLsb', getLsbD_accWord, if_neg (by omega), if_pos (by omega),
    Nat.add_sub_cancel_left, BitVec.getLsbD_eq_getElem hi]

@[simp] theorem accData_accWord (wr : Bool) (idx : Idx) (data : U16) : accData (accWord wr idx data) = data :=
  BitVec.extractLsb'_append_eq_right

/-- The first byte of an access word. -/
def accHead (wr : Bool) (idx : Idx) : Byte := BitVec.ofBool wr ++ 0#1 ++ idx

/-- An access word on the wire: `W`, bit 22 and `IDX` in the first byte, then `DATA`, high byte first. -/
theorem accBytes_accWord (wr : Bool) (idx : Idx) (x y : Byte) :
    accBytes (accWord wr idx (be16 x y)) = [accHead wr idx, x, y] := by
  have hhead : (accWord wr idx (be16 x y)).extractLsb' 16 8 = accHead wr idx :=
    BitVec.extractLsb'_append_eq_left
  have hhigh : (accWord wr idx (be16 x y)).extractLsb' 8 8 = hi8 (be16 x y) := by
    ext i hi
    rw [hi8, BitVec.getElem_extractLsb', BitVec.getElem_extractLsb', getLsbD_accWord, if_pos (by omega)]
  have hlow : (accWord wr idx (be16 x y)).extractLsb' 0 8 = lo8 (be16 x y) := by
    ext i hi
    rw [lo8, BitVec.getElem_extractLsb', BitVec.getElem_extractLsb', getLsbD_accWord, if_pos (by omega)]
  rw [accBytes, hhead, hhigh, hlow, hi8_be16, lo8_be16]

/-! ### What the decoder reads in it (R61) -/

theorem decode_accWord_write (idx : Idx) (v : U16) : decode (accBytes (accWord true idx v)) = decodeWrite idx v := by
  simp [decode_accBytes, decodeAcc]

theorem decode_accWord_read (idx : Idx) (v : U16) : decode (accBytes (accWord false idx v)) = decodeRead idx := by
  simp [decode_accBytes, decodeAcc]

/-- Three written-out bytes that begin as a write of `idx` does. -/
theorem decode_write_bytes (idx : Idx) (x y : Byte) :
    decode [accHead true idx, x, y] = decodeWrite idx (be16 x y) := by
  rw [← accBytes_accWord, decode_accWord_write]

/-- Three written-out bytes that begin as a read of `idx` does: `DATA` is ignored. -/
theorem decode_read_bytes (idx : Idx) (x y : Byte) : decode [accHead false idx, x, y] = decodeRead idx := by
  rw [← accBytes_accWord, decode_accWord_read]

/-! ### What a step performs -/

/-- What the machine does with what the decoder answers. -/
def performDecoded (d : Decoded) (s : State) : Host.Outcome State Fault Refusal :=
  match d with
  | .op i => exec i s
  | .illegal x => .next (performIllegal x s)
  | .refused e => .refused (.notAnAccess e)

/-- A step takes the oldest access and performs what it decodes to. -/
theorem step_issue_performDecoded {s : State} {B : List Byte} {rest : List HostEvent}
    (hp : s.pending = .issue B :: rest) : step s = performDecoded (decode B) (State.withPending rest s) := by
  simp only [step, fetch, hp]
  cases decode B <;> rfl

end Sys2Proof.Machine
end

