-- ==== Sys2Proof/Proofs/RegisterMap.lean ====
section
/-! PROOF. The register map (10_state.md R17, 40_access_and_buffer.md R85, R86): the decoder's reading of an access and
RegRead, RegWrite agree at every index, and what the illegal accesses of R99 and R100 do. -/

namespace Sys2Proof.Machine

open Sys2Proof.Safety

/-! ### Reads, index by index (R85) -/

/-- R17: every index is readable or its read is illegal. -/
theorem readIndex_cases : ∀ idx : Idx,
    idx = idxStatus ∨ idx = idxRxcnt ∨ idx = idxRxsum ∨
      (∃ k : Fin 12, idx = idxField0 + BitVec.ofNat 6 k) ∨ (∃ i : Fin 7, idx = idxTxbyte0 + BitVec.ofNat 6 i) ∨
      IllegalToRead idx := by
  unfold IllegalToRead
  decide

theorem decodeRead_illegal : ∀ idx : Idx, IllegalToRead idx → decodeRead idx = .illegal (.read idx) := by
  unfold IllegalToRead
  decide

theorem regRead_illegal {idx : Idx} (h : IllegalToRead idx) (s : State) :
    regRead idx s = (report .illegalAccess s, 0x0000#16) := by
  have hlegal : idx ≠ idxStatus ∧ idx ≠ idxRxcnt ∧ idx ≠ idxRxsum ∧ ¬ (0x10 ≤ idx.toNat ∧ idx.toNat ≤ 0x1B) ∧
      ¬ (0x20 ≤ idx.toNat ∧ idx.toNat ≤ 0x26) := by
    revert h idx
    unfold IllegalToRead
    decide
  obtain ⟨hstatus, hrxcnt, hrxsum, hfield, htxbyte⟩ := hlegal
  rw [regRead, if_neg hstatus, if_neg hrxcnt, if_neg hrxsum, if_neg hfield, if_neg htxbyte]

/-- A read access performs RegRead. -/
theorem performDecoded_decodeRead (idx : Idx) (s : State) :
    performDecoded (decodeRead idx) s = .next (State.returning (some (regRead idx s).2) (regRead idx s).1) := by
  obtain rfl | rfl | rfl | ⟨k, rfl⟩ | ⟨i, rfl⟩ | hillegal := readIndex_cases idx
  · rfl
  · rfl
  · rfl
  · fin_cases k <;> rfl
  · fin_cases i <;> rfl
  · rw [decodeRead_illegal idx hillegal, regRead_illegal hillegal]
    rfl

/-! ### Writes, index by index (R86) -/

theorem performDecoded_decodeWrite_cmd (v : U16) (s : State) :
    performDecoded (decodeWrite idxCmd v) s = .next (State.returning none (regWrite idxCmd v s)) := by
  simp only [decodeWrite, regWrite, if_pos]
  split_ifs <;> rfl

theorem performDecoded_decodeWrite_txreq (v : U16) (s : State) :
    performDecoded (decodeWrite idxTxreq v) s = .next (State.returning none (regWrite idxTxreq v s)) := by
  have hcmd : idxTxreq ≠ idxCmd := by decide
  have hrxdata : idxTxreq ≠ idxRxdata := by decide
  rw [decodeWrite, regWrite, if_neg hcmd, if_neg hcmd, if_neg hrxdata, if_neg hrxdata, if_pos rfl, if_pos rfl]
  by_cases hmode : hi8 v = opChangeMode
  · rw [if_pos hmode, if_pos (.inl hmode), hmode]
    rfl
  by_cases hread : hi8 v = opRequestRead
  · rw [if_neg hmode, if_pos hread, if_pos (.inr (.inl hread)), hread]
    rfl
  by_cases hsleep : hi8 v = opSetSleep
  · rw [if_neg hmode, if_neg hread, if_pos hsleep, if_pos (.inr (.inr hsleep)), hsleep]
    rfl
  · rw [if_neg hmode, if_neg hread, if_neg hsleep, if_neg (by simp [hmode, hread, hsleep])]
    rfl

/-- The registers that can be written are `CMD`, `RXDATA` and `TXREQ`. -/
theorem regWrite_other {idx : Idx} (hcmd : idx ≠ idxCmd) (hrxdata : idx ≠ idxRxdata) (htxreq : idx ≠ idxTxreq)
    (v : U16) (s : State) : regWrite idx v s = report .illegalAccess s := by
  rw [regWrite, if_neg hcmd, if_neg hrxdata, if_neg htxreq]

/-- A write access performs RegWrite. -/
theorem performDecoded_decodeWrite (idx : Idx) (v : U16) (s : State) :
    performDecoded (decodeWrite idx v) s = .next (State.returning none (regWrite idx v s)) := by
  by_cases hcmd : idx = idxCmd
  · rw [hcmd, performDecoded_decodeWrite_cmd]
  by_cases hrxdata : idx = idxRxdata
  · rw [hrxdata]
    rfl
  by_cases htxreq : idx = idxTxreq
  · rw [htxreq, performDecoded_decodeWrite_txreq]
  · rw [regWrite_other hcmd hrxdata htxreq, decodeWrite, if_neg hcmd, if_neg hrxdata, if_neg htxreq]
    rfl

/-- Settles O11: a step performs what the access word decodes to, and that is RegWrite for a write, RegRead for a
read. -/
theorem accessStepsAsRegReadRegWrite : Obligations.AccessStepsAsRegReadRegWrite := by
  intro s rest wr idx data hp
  rw [step_issue_performDecoded hp]
  cases wr with
  | false =>
    rw [decode_accWord_read, performDecoded_decodeRead]
    rfl
  | true =>
    rw [decode_accWord_write, performDecoded_decodeWrite]
    rfl

/-! ### Illegal accesses (R99, R100) -/

/-- R99: a code that is none of the three is reported. -/
theorem regWrite_cmd_illegal {v : U16} (hrxclr : lo8 v ≠ codeRxclr) (hvalidate : lo8 v ≠ codeValidate)
    (hsoftrst : lo8 v ≠ codeSoftrst) (s : State) : regWrite idxCmd v s = report .illegalCommand s := by
  rw [regWrite, if_pos rfl, if_neg hrxclr, if_neg hvalidate, if_neg hsoftrst]

theorem regWrite_illegal {idx : Idx} (h : IllegalToWrite idx) (v : U16) (s : State) :
    regWrite idx v s = report .illegalAccess s := by
  have hlegal : idx ≠ idxCmd ∧ idx ≠ idxRxdata ∧ idx ≠ idxTxreq := by
    revert h idx
    unfold IllegalToWrite
    decide
  obtain ⟨hcmd, hrxdata, htxreq⟩ := hlegal
  exact regWrite_other hcmd hrxdata htxreq v s

/-- The low byte of a value is a code only if the value is that code modulo 256. -/
theorem lo8_ne_of_mod_ne {v : U16} {c : Byte} (h : v.toNat % 256 ≠ c.toNat) : lo8 v ≠ c := by
  rintro rfl
  exact h (lo8_toNat v).symm

/-- Settles O12: the step is RegWrite on `CMD` (O11), which reports a code that is none of the three; of `0x0102` the
decoder looks at the low byte alone. -/
theorem illegalCommandOnlySetsIllcmd : Obligations.IllegalCommandOnlySetsIllcmd := by
  refine ⟨fun s rest v hrxclr hvalidate hsoftrst hp => ?step, ?decode⟩
  case step =>
    have hreport (t : State) : regWrite idxCmd v t = report .illegalCommand t :=
      regWrite_cmd_illegal (lo8_ne_of_mod_ne hrxclr) (lo8_ne_of_mod_ne hvalidate) (lo8_ne_of_mod_ne hsoftrst) t
    rw [accessStepsAsRegReadRegWrite s rest true idxCmd v hp, access, if_pos rfl, hreport]
    rfl
  case decode =>
    rw [decode_accWord_write]
    decide

/-- Settles O14: the step is RegRead or RegWrite (O11), and each reports an index that is illegal for it. -/
theorem illegalAccessOnlySetsBadacc : Obligations.IllegalAccessOnlySetsBadacc := by
  refine fun s rest idx v => ⟨fun hillegal hp => ?read, fun hillegal hp => ?write⟩
  case read =>
    rw [accessStepsAsRegReadRegWrite s rest false idx v hp, access, if_neg Bool.false_ne_true,
      regRead_illegal hillegal]
    rfl
  case write =>
    rw [accessStepsAsRegReadRegWrite s rest true idx v hp, access, if_pos rfl, regWrite_illegal hillegal]
    rfl

end Sys2Proof.Machine
end

