-- ==== Sys2Proof/Proofs/ExecCases.lean ====
section
/-! PROOF. What an instruction can do, said once for all 33 rows, and the four flags that only a reset clears
(10_state.md R21, R25 to R27). -/

namespace Sys2Proof.Machine

open Sys2Proof.Safety

/-- A read returns a value, and the state is as it was (20_memory.md R51). -/
theorem exec_read {i : Instr} (h : i ∈ readOps) (s : State) :
    ∃ v, exec i s = .next (State.returning (some v) s) := by
  fin_cases h <;> exact ⟨_, rfl⟩

/-- What an instruction does to the state: one of the writes, a read, or the first access of a wire frame, whose other
accesses it puts before what is pending (log 6). `exec_effect` says that nothing else happens. -/
inductive ExecEffect (s : State) : Instr → State → Prop where
  | clear : ExecEffect s .rxclr (State.returning none (clearRx s))
  | judge : ExecEffect s .validate (State.returning none (validateBuffer s))
  | reset : ExecEffect s .softrst (State.returning none (resetBlock s))
  | push (b : Byte) : ExecEffect s (.push b) (State.returning none (pushByte b s))
  | load (i : Instr) (op a : Byte) : ExecEffect s i (State.returning none (State.loadTx op a s))
  | read (i : Instr) (v : U16) (hi : i ∈ readOps) : ExecEffect s i (State.returning (some v) s)
  | emit (i : Instr) (op a : Byte) : ExecEffect s i (emitCommand op a s)
  | receive (i : Instr) (B : List Byte) : ExecEffect s i (receiveFrame B s)

/-- Everything an instruction can do. -/
theorem exec_effect {i : Instr} {s t : State} (h : exec i s = .next t) : ExecEffect s i t := by
  have hread (hi : i ∈ readOps) : ExecEffect s i t := by
    obtain ⟨v, hv⟩ := exec_read hi s
    obtain rfl : State.returning (some v) s = t := Host.Outcome.next.inj (hv.symm.trans h)
    exact .read i v hi
  cases i with
  | rxclr => cases h; exact .clear
  | validate => cases h; exact .judge
  | softrst => cases h; exact .reset
  | push b => cases h; exact .push b
  | encMode a | encRead a | encSleep a => cases h; exact .load _ _ a
  | cframeChangeMode a _ | cframeRequestReadPassive a _ | cframeSetSleep a _ => cases h; exact .emit _ _ a
  | mframe => cases h; exact .receive _ _
  | _ => exact hread (by simp [readOps])

/-! ### The flags that only a reset clears -/

/-- None of `FVALID`, `TXVALID`, `ILLCMD` and `BADACC` falls from `s` to `t`. -/
structure FlagsKept (s t : State) : Prop where
  fvalid : s.fvalid = true → t.fvalid = true
  txvalid : s.txvalid = true → t.txvalid = true
  illcmd : s.illcmd = true → t.illcmd = true
  badacc : s.badacc = true → t.badacc = true

/-- No flag depends on what the access returns (log 2). -/
theorem FlagsKept.returning {s t : State} (h : FlagsKept s t) (v : Option U16) :
    FlagsKept s (State.returning v t) := ⟨h.fvalid, h.txvalid, h.illcmd, h.badacc⟩

/-- No flag depends on the host's queue (log 1). -/
theorem FlagsKept.following {s t : State} (h : FlagsKept s t) (es : List HostEvent) :
    FlagsKept s (State.following es t) := ⟨h.fvalid, h.txvalid, h.illcmd, h.badacc⟩

theorem flagsKept_refl (s : State) : FlagsKept s s := ⟨id, id, id, id⟩

theorem flagsKept_clearRx (s : State) : FlagsKept s (clearRx s) := ⟨id, id, id, id⟩

theorem flagsKept_storeByte (b : Byte) (s : State) : FlagsKept s (State.storeByte b s) := ⟨id, id, id, id⟩

theorem flagsKept_latch (m : Measurement) (s : State) : FlagsKept s (State.latch m s) := ⟨fun _ => rfl, id, id, id⟩

theorem flagsKept_loadTx (op a : Byte) (s : State) : FlagsKept s (State.loadTx op a s) := ⟨id, fun _ => rfl, id, id⟩

/-- Taking an error sets a flag or a code and clears none (60_exceptions.md R185). -/
theorem flagsKept_report (c : ErrorCause) (s : State) : FlagsKept s (report c s) := by
  cases c with
  | startByteMismatch | checksumMismatch | incomplete | receiveOverrun => exact ⟨id, id, id, id⟩
  | illegalCommand => exact ⟨id, id, fun _ => rfl, id⟩
  | illegalAccess => exact ⟨id, id, id, fun _ => rfl⟩

theorem flagsKept_pushByte (b : Byte) (s : State) : FlagsKept s (pushByte b s) := by
  obtain ⟨_, hstore⟩ | ⟨_, hoverrun⟩ := pushByte_cases b s
  · rw [hstore]
    exact flagsKept_storeByte b s
  · rw [hoverrun]
    exact flagsKept_report _ s

theorem flagsKept_validateBuffer (s : State) : FlagsKept s (validateBuffer s) := by
  obtain ⟨_, h⟩ | ⟨_, _, h⟩ | ⟨_, _, _, h⟩ | ⟨_, _, _, h⟩ := validateBuffer_cases s
  · exact h ▸ flagsKept_report _ s
  · exact h ▸ flagsKept_report _ s
  · exact h ▸ flagsKept_report _ s
  · exact h ▸ flagsKept_latch _ s

/-- R89: no instruction but `SOFTRST` clears one of the four flags. -/
theorem exec_flagsKept {i : Instr} {s t : State} (h : exec i s = .next t) (hi : i ≠ .softrst) : FlagsKept s t := by
  cases exec_effect h with
  | clear => exact (flagsKept_clearRx s).returning none
  | judge => exact (flagsKept_validateBuffer s).returning none
  | reset => exact absurd rfl hi
  | push b => exact (flagsKept_pushByte b s).returning none
  | load _ op a => exact (flagsKept_loadTx op a s).returning none
  | read _ v => exact (flagsKept_refl s).returning (some v)
  | emit _ op a => exact ((flagsKept_loadTx op a s).returning none).following _
  | receive => exact ((flagsKept_clearRx s).returning none).following _

end Sys2Proof.Machine
end

