-- ==== Sys2Proof/Proofs/Clearing.lean ====
section
/-! PROOF. The two operations that clear (40_access_and_buffer.md R88, R89): `RXCLR` forgets the reception and nothing
else, `SOFTRST` gives the reset values and is alone in clearing the four flags. -/

namespace Sys2Proof.Machine

open Sys2Proof.Safety

/-- A written-out command word: bits 15:8 of `CMD` are ignored, the code stands below (R63). -/
theorem decode_cmd_bytes (x code : Byte) : decode [0x80#8, x, code] = decodeWrite idxCmd (be16 x code) := by
  have hhead : (0x80#8 : Byte) = accHead true idxCmd := by decide
  rw [hhead, decode_write_bytes]

/-! ### `SOFTRST` (R89) -/

theorem decode_softrst_bytes (x : Byte) : decode [0x80#8, x, codeSoftrst] = .op .softrst := by
  rw [decode_cmd_bytes, decodeWrite, lo8_be16]
  rfl

theorem exec_softrst (s : State) : exec .softrst s = .next (resetBlock s) := rfl

/-- The block after a reset is the reset state's, the host's queue aside (log 1). -/
theorem resetBlock_eq (s : State) : resetBlock s = { State.reset with pending := s.pending } := rfl

/-- A second `SOFTRST` leaves what the first one left. -/
theorem exec_softrst_resetBlock (s : State) : exec .softrst (resetBlock s) = .next (resetBlock s) := rfl

theorem Measurement.get_zero (k : Fin 12) : Measurement.zero.get k = 0x0000#16 := by
  fin_cases k <;> rfl

/-- `STATUS` reads `0x0000` after a reset (70_reset_and_hazards.md R196). -/
theorem regRead_status_resetBlock (s : State) : regRead idxStatus (resetBlock s) = (resetBlock s, 0x0000#16) := by
  have hqueue : statusWord (resetBlock s) = statusWord State.reset := rfl
  have hzero : statusWord State.reset = 0x0000#16 := by decide
  rw [regRead_status, hqueue, hzero]

theorem agreeUpToStale_of_eq {s t : State} (h : t = s) : AgreeUpToStale s t := by
  subst h
  exact ⟨fun _ _ => rfl, rfl, rfl, rfl, rfl, rfl, ⟨rfl, rfl, rfl⟩, ⟨rfl, rfl⟩, rfl, rfl⟩

/-- An instruction that clears one of the four flags is `SOFTRST`: every other keeps them all. -/
theorem eq_softrst_of_flag_falls {i : Instr} {s t : State} (h : exec i s = .next t)
    (hfalls : (s.fvalid = true ∧ t.fvalid = false) ∨ (s.txvalid = true ∧ t.txvalid = false) ∨
      (s.illcmd = true ∧ t.illcmd = false) ∨ (s.badacc = true ∧ t.badacc = false)) : i = .softrst := by
  by_contra hi
  have hkept := exec_flagsKept h hi
  obtain ⟨hset, hclear⟩ | ⟨hset, hclear⟩ | ⟨hset, hclear⟩ | ⟨hset, hclear⟩ := hfalls
  · exact absurd (hkept.fvalid hset) (Bool.eq_false_iff.mp hclear)
  · exact absurd (hkept.txvalid hset) (Bool.eq_false_iff.mp hclear)
  · exact absurd (hkept.illcmd hset) (Bool.eq_false_iff.mp hclear)
  · exact absurd (hkept.badacc hset) (Bool.eq_false_iff.mp hclear)

/-- Settles O20: the reset values are `resetBlock`'s, which is idempotent, and the flags are kept by every other
instruction. -/
theorem softrstGivesResetValues : Obligations.SoftrstGivesResetValues := by
  refine ⟨decode_softrst_bytes, fun i s t => eq_softrst_of_flag_falls, fun s => ?_⟩
  exact ⟨resetBlock s, resetBlock s, exec_softrst s, rfl, rfl, rfl, rfl, Measurement.get_zero, rfl, rfl, rfl, rfl, rfl,
    rfl, rfl, regRead_status_resetBlock s, agreeUpToStale_of_eq (resetBlock_eq s),
    exec_softrst_resetBlock s, agreeUpToStale_of_eq rfl⟩

/-! ### `RXCLR` (R88) -/

theorem decode_rxclr_bytes (x : Byte) : decode [0x80#8, x, codeRxclr] = .op .rxclr := by
  rw [decode_cmd_bytes, decodeWrite, lo8_be16]
  rfl

/-- The views of an empty buffer: not full, no frame start, and an empty sum. -/
theorem views_of_rxcnt_zero {s : State} (h : s.rxcnt = 0#6) :
    rxFull s = false ∧ sofView s = false ∧ rxSum s = 0x0000#16 := by
  simp [rxFull, sofView, rxSum, rxBytes, h]

/-- Settles O23: `clearRx` names the three values it sets, the views follow from the count, and a second `RXCLR` finds
them set. -/
theorem rxclrForgetsOnlyTheReception : Obligations.RxclrForgetsOnlyTheReception := by
  refine ⟨decode_rxclr_bytes, fun s => ?_⟩
  obtain ⟨hfull, hsof, hsum⟩ := views_of_rxcnt_zero (s := State.returning none (clearRx s)) rfl
  exact ⟨State.returning none (clearRx s), rfl, rfl, rfl, rfl, hfull, hsof, hsum, rfl, rfl, ⟨rfl, rfl, rfl⟩, ⟨rfl, rfl⟩,
    rfl, rfl, rfl⟩

end Sys2Proof.Machine
end

