-- ==== Sys2Proof/Proofs/PushViews.lean ====
section
/-! PROOF. `PUSH` (40_access_and_buffer.md R87): the stored byte, and how the three views `RXSUM`, `SOF` and `RXFULL`
follow the bytes and the count. -/

namespace Sys2Proof.Machine

open Sys2Proof.Safety

theorem decode_push_bytes (x b : Byte) : decode [0x82#8, x, b] = .op (.push b) := by
  have hhead : (0x82#8 : Byte) = accHead true idxRxdata := by decide
  rw [hhead, decode_write_bytes]
  change Decoded.op (.push (lo8 (be16 x b))) = .op (.push b)
  rw [lo8_be16]

theorem exec_push (b : Byte) (s : State) : exec (.push b) s = .next (State.returning none (pushByte b s)) := rfl

/-- A push while there is room. -/
theorem pushByte_of_lt (b : Byte) {s : State} (h : s.rxcnt.toNat < 32) : pushByte b s = State.storeByte b s :=
  if_pos h

/-- A push into a full buffer. -/
theorem pushByte_of_le (b : Byte) {s : State} (h : 32 ≤ s.rxcnt.toNat) : pushByte b s = report .receiveOverrun s :=
  if_neg (Nat.not_lt.mpr h)

section Store

variable {b : Byte} {s : State}

/-- A byte below the count is not the one that is stored. -/
theorem rxByte_storeByte_of_lt {i : Nat} (h : i < s.rxcnt.toNat) : rxByte (State.storeByte b s) i = rxByte s i := by
  rw [rxByte_storeByte, if_neg h.ne]

theorem rxByte_storeByte_self : rxByte (State.storeByte b s) s.rxcnt.toNat = b := by
  rw [rxByte_storeByte, if_pos rfl]

/-- The bytes received before stand where they stood. -/
theorem rxBytes_storeByte_of_le {n : Nat} (h : n ≤ s.rxcnt.toNat) :
    rxBytes (State.storeByte b s) n = rxBytes s n :=
  rxBytes_congr n fun _ hi => rxByte_storeByte_of_lt (hi.trans_le h)

/-- `RXSUM` (R105) grows by the stored byte below offset 30 and stays from there on. -/
theorem rxSum_storeByte (h : s.rxcnt.toNat < 32) :
    rxSum (State.storeByte b s) = if s.rxcnt.toNat < 30 then add16 (rxSum s) (zext16 b) else rxSum s := by
  rw [rxSum, rxcnt_storeByte_toNat b s h, rxSum, msumLen]
  by_cases hcovered : s.rxcnt.toNat < 30
  · have hbefore : min s.rxcnt.toNat 30 = s.rxcnt.toNat := by omega
    have hafter : min (s.rxcnt.toNat + 1) 30 = s.rxcnt.toNat + 1 := by omega
    rw [if_pos hcovered, hbefore, hafter, rxBytes_succ, rxByte_storeByte_self, rxBytes_storeByte_of_le le_rfl]
    simp [add16]
  · have hbefore : min s.rxcnt.toNat 30 = 30 := by omega
    have hafter : min (s.rxcnt.toNat + 1) 30 = 30 := by omega
    rw [if_neg hcovered, hbefore, hafter, rxBytes_storeByte_of_le (by omega)]

/-- `SOF` (R116) is decided by the second byte and stays from there on. -/
theorem sofView_storeByte (h : s.rxcnt.toNat < 32) :
    sofView (State.storeByte b s) = if s.rxcnt.toNat = 0 then false
      else if s.rxcnt.toNat = 1 then sofOk (rxByte s 0) b else sofView s := by
  rw [sofView, rxcnt_storeByte_toNat b s h]
  by_cases hfirst : s.rxcnt.toNat = 0
  · simp [hfirst]
  have hzero : rxByte (State.storeByte b s) 0 = rxByte s 0 := rxByte_storeByte_of_lt (by omega)
  by_cases hsecond : s.rxcnt.toNat = 1
  · have hone : rxByte (State.storeByte b s) 1 = b := hsecond ▸ rxByte_storeByte_self
    simp [hsecond, hzero, hone]
  · have hone : rxByte (State.storeByte b s) 1 = rxByte s 1 := rxByte_storeByte_of_lt (by omega)
    have hbefore : 2 ≤ s.rxcnt.toNat := by omega
    have hafter : 2 ≤ s.rxcnt.toNat + 1 := by omega
    simp [sofView, hfirst, hsecond, hzero, hone, hbefore, hafter]

/-- `RXFULL` (R22) rises with the thirty-second byte. -/
theorem rxFull_storeByte (h : s.rxcnt.toNat < 32) :
    rxFull (State.storeByte b s) = decide (s.rxcnt.toNat = 31) := by
  have hcount : (State.storeByte b s).rxcnt = 32#6 ↔ s.rxcnt.toNat = 31 := by
    rw [← BitVec.toNat_inj, rxcnt_storeByte_toNat b s h]
    exact Nat.succ_inj
  rw [rxFull, beq_eq_decide]
  exact decide_eq_decide.mpr hcount

end Store

/-- Settles O22: below 32 the state is `storeByte`'s, whose count and views have a law each; from 32 on the overrun is
reported. -/
theorem pushStoresOrOverruns : Obligations.PushStoresOrOverruns := by
  refine ⟨decode_push_bytes, fun b s => ⟨fun hroom => ?store, fun hfull => ?overrun⟩⟩
  case store =>
    rw [exec_push, pushByte_of_lt b hroom]
    exact ⟨State.returning none (State.storeByte b s), rfl, rxByte_storeByte b s, rxcnt_storeByte_toNat b s hroom, rfl,
      rfl, rfl, rfl, ⟨rfl, rfl, rfl⟩, ⟨rfl, rfl⟩, rfl, rfl, rxSum_storeByte hroom, sofView_storeByte hroom,
      rxFull_storeByte (b := b) hroom⟩
  case overrun =>
    rw [exec_push, pushByte_of_le b hfull]
    rfl

end Sys2Proof.Machine
end

