-- ==== Sys2Proof/Proofs/StatusBits.lean ====
section
/-! PROOF. `RD.STATUS` (10_state.md R19, 40_access_and_buffer.md R90): each flag at its bit, and the bound that
`RESULT` puts on the value. -/

namespace Sys2Proof.Machine

theorem decode_rdStatus_bytes (x y : Byte) : decode [0x01#8, x, y] = .op .rdStatus := by
  have hhead : (0x01#8 : Byte) = accHead false idxStatus := by decide
  rw [hhead, decode_read_bytes]
  rfl

/-- The seven flags stand above the outcome code, in the order of R19. -/
theorem statusWord_flags (s : State) :
    (statusWord s).getLsbD 3 = s.fvalid ∧ (statusWord s).getLsbD 4 = rxFull s ∧
      (statusWord s).getLsbD 5 = sofView s ∧ (statusWord s).getLsbD 6 = s.rxovr ∧
      (statusWord s).getLsbD 7 = s.txvalid ∧ (statusWord s).getLsbD 8 = s.illcmd ∧
      (statusWord s).getLsbD 9 = s.badacc := by
  refine ⟨?_, ?_, ?_, ?_, ?_, ?_, ?_⟩
  all_goals
    unfold statusWord
    change BitVec.getLsbD (w := 6 + 1 + 1 + 1 + 1 + 1 + 1 + 1 + 3) _ _ = _
    simp only [BitVec.getLsbD_append]
    exact BitVec.getLsbD_ofBool _ 0

/-- R20: the outcome codes end at 4. -/
theorem Result.code_toNat_le (r : Result) : r.code.toNat ≤ 4 := by
  cases r <;> decide

/-- R90: ten bits with at most 4 in the lowest three. -/
theorem statusWord_toNat_le (s : State) : (statusWord s).toNat ≤ 0x03FC := by
  have hcode : (statusWord s).toNat % 8 = s.result.code.toNat := by
    rw [← outcomeCode_statusWord, outcomeCode, BitVec.extractLsb'_toNat]
    rfl
  have hten := statusWord_toNat_lt s
  have hle := s.result.code_toNat_le
  omega

/-- R22: `RXFULL` is a comparison of the count. -/
theorem rxFull_eq_decide (s : State) : rxFull s = decide (s.rxcnt = 32#6) := beq_eq_decide _ _

/-- R23: `SOF` is a comparison of the first two bytes, once both are there. -/
theorem sofView_eq_decide (s : State) :
    sofView s = decide (2 ≤ s.rxcnt.toNat ∧ rxByte s 0 = 0x42#8 ∧ rxByte s 1 = 0x4D#8) := by
  simp only [sofView, sofOk, start0, start1, beq_eq_decide, Bool.decide_and]

/-- Settles O45: the value is `statusWord`, taken apart bit by bit. -/
theorem readStatusReturnsStatus : Obligations.ReadStatusReturnsStatus := by
  refine ⟨decode_rdStatus_bytes, fun s => ?_⟩
  obtain ⟨hfvalid, hrxfull, hsof, hrxovr, htxvalid, hillcmd, hbadacc⟩ := statusWord_flags s
  exact ⟨statusWord s, rfl, outcomeCode_statusWord s, hfvalid, hrxfull.trans (rxFull_eq_decide s),
    hsof.trans (sofView_eq_decide s), hrxovr, htxvalid, hillcmd, hbadacc, statusWord_toNat_le s⟩

end Sys2Proof.Machine
end

