-- ==== Sys2Proof/Proofs/ByteSum.lean ====
section
/-! PROOF. The byte sum (41_checksum.md R102, R103): it is the integer sum of the bytes modulo 65536, which gives the
laws about range and order; its wrapping addition gives the others. -/

namespace Sys2Proof.Machine

/-! ### Range (R103, law 1) -/

@[simp] theorem zext16_toNat (b : Byte) : (zext16 b).toNat = b.toNat :=
  BitVec.toNat_setWidth_of_le (by decide)

theorem zext16_injective {b b' : Byte} (h : zext16 b = zext16 b') : b = b' :=
  BitVec.eq_of_toNat_eq (by rw [← zext16_toNat b, h, zext16_toNat])

/-- R102's first form: the integer sum, reduced once at the end. -/
theorem sum16_toNat (B : List Byte) : (sum16 B).toNat = (B.map BitVec.toNat).sum % 65536 := by
  induction B with
  | nil => rfl
  | cons b rest ih => simp [ih]

/-- The integer sum of `n` bytes is at most `255 * n`. -/
theorem sum_map_toNat_le (B : List Byte) : (B.map BitVec.toNat).sum ≤ 255 * B.length := by
  induction B with
  | nil => rfl
  | cons b rest ih =>
    have hb : b.toNat < 256 := b.isLt
    rw [List.map_cons, List.sum_cons, List.length_cons]
    omega

/-- `257 * 255` is the last multiple of 255 that 16 bits hold. -/
theorem sum16_toNat_of_length_le {B : List Byte} (h : B.length ≤ 257) :
    (sum16 B).toNat = (B.map BitVec.toNat).sum := by
  have hsum := sum_map_toNat_le B
  rw [sum16_toNat, Nat.mod_eq_of_lt (by omega)]

theorem sum16_toNat_le {B : List Byte} (h : B.length ≤ 257) : (sum16 B).toNat ≤ 255 * B.length :=
  (sum16_toNat_of_length_le h).trans_le (sum_map_toNat_le B)

theorem length_cframeBody (op a : Byte) : (cframeBody op a).length = 5 := rfl

/-- The five summed bytes of a command frame: two of them, and the high byte of the argument, are fixed (R65). -/
theorem sum16_cframeBody_toNat (op a : Byte) : (sum16 (cframeBody op a)).toNat = 0x8F + op.toNat + a.toNat := by
  have hlength : (cframeBody op a).length ≤ 257 := by rw [length_cframeBody]; decide
  have hsum : ((cframeBody op a).map BitVec.toNat).sum = 0x42 + (0x4D + (op.toNat + (0x00 + (a.toNat + 0)))) := rfl
  rw [sum16_toNat_of_length_le hlength, hsum]
  omega

/-! ### Order, one byte changed, zero bytes (R103, laws 2, 4 and 5) -/

/-- The integer sum does not see the order. -/
theorem sum16_perm {A B : List Byte} (h : A.Perm B) : sum16 A = sum16 B :=
  BitVec.eq_of_toNat_eq (by rw [sum16_toNat, sum16_toNat, (h.map BitVec.toNat).sum_eq])

/-- One byte, taken out of the sum. -/
theorem sum16_append_cons (A C : List Byte) (b : Byte) : sum16 (A ++ b :: C) = zext16 b + sum16 (A ++ C) := by
  rw [sum16_append, sum16_cons, sum16_append, add_left_comm]

theorem sum16_change_sub (A C : List Byte) (b b' : Byte) :
    sum16 (A ++ b' :: C) - sum16 (A ++ b :: C) = zext16 b' - zext16 b := by
  rw [sum16_append_cons, sum16_append_cons, add_sub_add_right_eq_sub]

theorem sum16_change_ne {b b' : Byte} (h : b ≠ b') (A C : List Byte) : sum16 (A ++ b' :: C) ≠ sum16 (A ++ b :: C) := by
  intro heq
  rw [sum16_append_cons, sum16_append_cons, BitVec.add_left_inj] at heq
  exact h (zext16_injective heq).symm

theorem sum16_insert_zero (A C : List Byte) : sum16 (A ++ 0x00#8 :: C) = sum16 (A ++ C) := by
  have hzero : zext16 0x00#8 = 0#16 := rfl
  rw [sum16_append_cons, hzero, BitVec.zero_add]

/-- Settles O33: range by the integer sum, order by its commutativity, the other laws by taking one byte out of the
sum. -/
theorem byteSumLaws : Obligations.ByteSumLaws := by
  refine ⟨fun B => sum16_toNat_of_length_le, fun B hlength => ?thirty, fun op a => ?command, fun A B => sum16_perm,
    sum16_append, fun A C b b' hne => ⟨sum16_change_sub A C b b', sum16_change_ne hne A C⟩, sum16_insert_zero⟩
  case thirty =>
    have hsum := sum16_toNat_le (B := B) (by omega)
    omega
  case command =>
    rw [sum16_cframeBody_toNat]
    have hop : op.toNat < 256 := op.isLt
    have ha : a.toNat < 256 := a.isLt
    omega

end Sys2Proof.Machine
end

