-- ==== Sys2Proof/Proofs/ChecksumRange.lean ====
section
/-! PROOF. Where a valid checksum lies (41_checksum.md R108): the two start bytes add `0x008F`, the other 28 summed
bytes at most `28 * 255`, and an accepted frame carries that sum with its high byte at offset 30. -/

namespace Sys2Proof.Machine

/-! ### Slices of a frame (R10) -/

/-- A slice that is not empty begins with its first byte. -/
theorem slice_eq_cons {B : List Byte} {i j : Nat} (hij : i < j) (hi : i < B.length) :
    slice B i j = byteAt B i :: slice B (i + 1) j := by
  have hbyte : byteAt B i = B[i] := List.getD_eq_getElem B 0#8 hi
  have hcount : j - i = j - (i + 1) + 1 := by omega
  rw [slice, slice, List.drop_eq_getElem_cons hi, hcount, List.take_succ_cons, hbyte]

theorem length_slice_le (B : List Byte) (i j : Nat) : (slice B i j).length ≤ j - i :=
  List.length_take_le _ _

/-! ### What `validate_and_strip` answers (R131) -/

theorem validateAndStrip_of_computed_ne {B : List Byte} (hsof : sofOk (byteAt B 0) (byteAt B 1) = true)
    (hchk : computed B ≠ received B) : validateAndStrip B = .err .checksumMismatch := by
  simp [validateAndStrip, chkOk, hsof, hchk]

/-- An accepted frame passes both checks. -/
theorem validateAndStrip_eq_ok_iff {B P : List Byte} :
    validateAndStrip B = .ok P ↔
      sofOk (byteAt B 0) (byteAt B 1) = true ∧ computed B = received B ∧ slice B 4 28 = P := by
  by_cases hsof : sofOk (byteAt B 0) (byteAt B 1) = true
  · by_cases hchk : computed B = received B
    · simp [validateAndStrip, chkOk, hsof, hchk]
    · simp [validateAndStrip_of_computed_ne hsof hchk, hchk]
  · simp [validateAndStrip, hsof]

/-! ### The sum and the received value (R106) -/

/-- The start bytes leave the sum as a constant. -/
theorem computed_of_start {B : List Byte} (hlength : B.length = 32) (h0 : byteAt B 0 = start0)
    (h1 : byteAt B 1 = start1) : computed B = 0x008F#16 + sum16 (slice B 2 30) := by
  have hslice : slice B 0 30 = start0 :: start1 :: slice B 2 30 := by
    rw [slice_eq_cons (by decide) (by omega), slice_eq_cons (by decide) (by omega), h0, h1]
  have hstart : zext16 start0 + zext16 start1 = 0x008F#16 := by decide
  rw [computed, msumLen, hslice, sum16_cons, sum16_cons, ← BitVec.add_assoc, hstart]

/-- No wrap: `0x008F + 28 * 255 = 0x1C73`. -/
theorem start_add_sum16_bounds {B : List Byte} (h : B.length ≤ 28) :
    0x008F ≤ (0x008F#16 + sum16 B).toNat ∧ (0x008F#16 + sum16 B).toNat ≤ 0x1C73 := by
  have hsum := sum16_toNat_le (B := B) (by omega)
  rw [BitVec.toNat_add_of_lt (by simp; omega), BitVec.toNat_ofNat]
  omega

theorem hi8_toNat (v : U16) : (hi8 v).toNat = v.toNat / 256 := by
  have hv : v.toNat < 65536 := v.isLt
  rw [hi8, BitVec.extractLsb'_toNat, Nat.shiftRight_eq_div_pow, Nat.mod_eq_of_lt (by omega)]

/-- Byte 30 is the high byte of the checksum field. -/
theorem byteAt_thirty_toNat (B : List Byte) : (byteAt B 30).toNat = (received B).toNat / 256 := by
  rw [← hi8_toNat, received, hi8_be16]

/-- Settles O32: the sum's range follows from the start bytes; a received value outside it differs from the sum, and
one that equals the sum has its high byte in the range's. -/
theorem validChecksumRange : Obligations.ValidChecksumRange := by
  intro B hlength h0 h1
  have hsof : sofOk (byteAt B 0) (byteAt B 1) = true := by rw [h0, h1]; decide
  have hsum : computed B = 0x008F#16 + sum16 (slice B 2 30) := computed_of_start hlength h0 h1
  obtain ⟨hlow, hhigh⟩ : 0x008F ≤ (computed B).toNat ∧ (computed B).toNat ≤ 0x1C73 :=
    hsum ▸ start_add_sum16_bounds (length_slice_le B 2 30)
  refine ⟨hsum, hlow, hhigh, fun houtside => ?mismatch, fun P haccepted => ?accepted⟩
  case mismatch =>
    refine validateAndStrip_of_computed_ne hsof fun heq => ?_
    rw [heq] at hlow hhigh
    omega
  case accepted =>
    obtain ⟨-, heq, -⟩ := validateAndStrip_eq_ok_iff.mp haccepted
    rw [byteAt_thirty_toNat, ← heq]
    omega

end Sys2Proof.Machine
end

