-- ==== Sys2Proof/Proofs/FrameStart.lean ====
section
/-! PROOF. The frame-start detector (42_frame_start.md R114): both bytes must match the two fixed start bytes. -/

namespace Sys2Proof.Machine

theorem sofOk_eq_true_iff {b0 b1 : Byte} : sofOk b0 b1 = true ↔ b0 = start0 ∧ b1 = start1 :=
  calc sofOk b0 b1 = true
    _ ↔ (b0 == start0) = true ∧ (b1 == start1) = true := Bool.and_eq_true_iff
    _ ↔ b0 = start0 ∧ b1 = start1 := and_congr beq_iff_eq beq_iff_eq

/-- Settles O38: the passing pair is `start0`, `start1`, whose values are `0x42` and `0x4D`. -/
theorem oneStartPairPasses : Obligations.OneStartPairPasses := by
  intro b0 b1
  have hstart0 : start0 = 0x42#8 := rfl
  have hstart1 : start1 = 0x4D#8 := rfl
  rw [sofOk_eq_true_iff, hstart0, hstart1]

end Sys2Proof.Machine
end

