-- ==== Sys2Proof/Proofs/FieldExtract.lean ====
section
/-! PROOF. The 16-bit field (43_field_extract.md R122): `be16` joins two bytes at weight 256, and the quotient and the
remainder by 256 take the value apart again. -/

namespace Sys2Proof.Machine

theorem be16_toNat (h l : Byte) : (be16 h l).toNat = h.toNat * 256 + l.toNat := by
  rw [be16, BitVec.toNat_append, ← Nat.shiftLeft_add_eq_or_of_lt l.isLt, Nat.shiftLeft_eq]

theorem be16_hi8_lo8 (v : U16) : be16 (hi8 v) (lo8 v) = v := by
  apply BitVec.eq_of_toNat_eq
  calc (be16 (hi8 v) (lo8 v)).toNat
    _ = (hi8 v).toNat * 256 + (lo8 v).toNat := be16_toNat (hi8 v) (lo8 v)
    _ = v.toNat / 256 * 256 + v.toNat % 256 := by rw [hi8_toNat, lo8_toNat]
    _ = v.toNat := Nat.div_add_mod' v.toNat 256

/-- Settles O37: the two halves of a joined pair are the pair, and a value joins up again from its halves. -/
theorem bigEndianHalves : Obligations.BigEndianHalves :=
  ⟨fun h l => ⟨be16_toNat h l, hi8_be16 h l, lo8_be16 h l⟩, be16_hi8_lo8⟩

end Sys2Proof.Machine
end

