-- ==== Sys2Proof/Proofs/Validate.lean ====
section
/-! PROOF. `VALIDATE` (44_validate.md R132, R135, R139, R142): over a full buffer it takes the outcome of
`validate_and_strip`, and what it leaves alone in every state. -/

namespace Sys2Proof.Machine

open Sys2Proof.Safety

/-! ### The operation (R132, R135) -/

theorem decode_validate_bytes (x : Byte) : decode [0x80#8, x, codeValidate] = .op .validate := by
  rw [decode_cmd_bytes, decodeWrite, lo8_be16]
  rfl

theorem exec_validate (s : State) : exec .validate s = .next (State.returning none (validateBuffer s)) := rfl

/-- What `VALIDATE` never writes, whichever of its four ends it takes (R132). -/
theorem validateBuffer_frame (s : State) :
    BufferSame s (validateBuffer s) ∧ (validateBuffer s).rxcnt = s.rxcnt ∧ (validateBuffer s).rxovr = s.rxovr ∧
      TxSame s (validateBuffer s) ∧ StickySame s (validateBuffer s) ∧ (validateBuffer s).pending = s.pending := by
  obtain ⟨_, h⟩ | ⟨_, _, h⟩ | ⟨_, _, _, h⟩ | ⟨_, _, _, h⟩ := validateBuffer_cases s
  all_goals
    rw [h]
    exact ⟨fun _ => rfl, rfl, rfl, ⟨rfl, rfl, rfl⟩, ⟨rfl, rfl⟩, rfl⟩

theorem sofOk_eq_false_iff {b0 b1 : Byte} : sofOk b0 b1 = false ↔ ¬ (b0 = start0 ∧ b1 = start1) := by
  rw [← sofOk_eq_true_iff, Bool.not_eq_true]

theorem Measurement.get_ofFn (f : Fin 12 → U16) (k : Fin 12) : (Measurement.ofFn f).get k = f k := by
  fin_cases k <;> rfl

/-- The two bytes of field `k`, with the offsets as `extract` (R123) has them. -/
theorem memRead2_field (s : State) (k : Fin 12) :
    memRead2 s (4 + 2 * k.val) = be16 (rxByte s (4 + 2 * k.val)) (rxByte s (5 + 2 * k.val)) := by
  have hlow : 5 + 2 * k.val = 4 + 2 * k.val + 1 := by omega
  rw [memRead2, hlow]

/-- Settles O25: each end of `validateBuffer` stands under the checks that lead to it, and the frame is common to
all four. -/
theorem validateOutcome : Obligations.ValidateOutcome := by
  refine ⟨decode_validate_bytes, fun s => ?_⟩
  obtain ⟨hbuffer, hcount, hovr, htx, hsticky, hpending⟩ := validateBuffer_frame s
  refine ⟨State.returning none (validateBuffer s), rfl, ?_, hbuffer, hcount, hovr, htx, hsticky, hpending, rfl⟩
  have hpass : sofOk (rxByte s 0) (rxByte s 1) = true ↔ rxByte s 0 = 0x42#8 ∧ rxByte s 1 = 0x4D#8 :=
    sofOk_eq_true_iff
  have hmiss : sofOk (rxByte s 0) (rxByte s 1) = false ↔ ¬ (rxByte s 0 = 0x42#8 ∧ rxByte s 1 = 0x4D#8) :=
    sofOk_eq_false_iff
  obtain ⟨hpart, h⟩ | ⟨hfull, hsof, h⟩ | ⟨hfull, hsof, hsum, h⟩ | ⟨hfull, hsof, hsum, h⟩ := validateBuffer_cases s
  · rw [h, if_pos hpart]
    exact ⟨rfl, rfl, rfl⟩
  · rw [h, if_neg (not_not.mpr hfull), if_pos (hmiss.mp hsof)]
    exact ⟨rfl, rfl, rfl⟩
  · rw [h, if_neg (not_not.mpr hfull), if_neg (not_not.mpr (hpass.mp hsof)), if_pos hsum]
    exact ⟨rfl, rfl, rfl⟩
  · rw [h, if_neg (not_not.mpr hfull), if_neg (not_not.mpr (hpass.mp hsof)), if_neg (not_not.mpr hsum)]
    exact ⟨rfl, rfl, fun k => (Measurement.get_ofFn _ k).trans (memRead2_field s k)⟩

/-- Settles O27: each of the three errors is a `report` into `RESULT`, and the fourth end is `OK`. -/
theorem failedValidateChangesOnlyResult : Obligations.FailedValidateChangesOnlyResult := by
  intro s t hexec hfailed
  obtain rfl : State.returning none (validateBuffer s) = t := Host.Outcome.next.inj hexec
  obtain ⟨_, h⟩ | ⟨_, _, h⟩ | ⟨_, _, _, h⟩ | ⟨_, _, _, h⟩ := validateBuffer_cases s <;> rw [h] at hfailed ⊢
  · rfl
  · rfl
  · rfl
  · exact absurd rfl hfailed

/-! ### The full buffer as a frame -/

theorem slice_zero_rxBytes (s : State) {k n : Nat} (h : k ≤ n) : slice (rxBytes s n) 0 k = rxBytes s k := by
  simp [slice, rxBytes, ← List.map_take, List.take_range, h]

/-- The sum that `VALIDATE` forms is `computed` of the buffer (R106). -/
theorem computed_rxBytes (s : State) : computed (rxBytes s 32) = sum16 (rxBytes s 30) := by
  rw [computed, msumLen, slice_zero_rxBytes s (by decide)]

theorem received_rxBytes (s : State) : received (rxBytes s 32) = be16 (rxByte s 30) (rxByte s 31) := by
  rw [received, byteAt_rxBytes s (by decide), byteAt_rxBytes s (by decide)]

theorem byteAt_slice (B : List Byte) {a b i : Nat} (h : i < b - a) : byteAt (slice B a b) i = byteAt B (a + i) := by
  simp [byteAt, slice, h]

/-- R123: the fields of a frame are those of its payload. -/
theorem decodePayload_slice (B : List Byte) : decodePayload (slice B 4 28) = extract B := by
  refine congrArg Measurement.ofFn (funext fun k => ?_)
  have hlow : 4 + (2 * k.val + 1) = 5 + 2 * k.val := by omega
  rw [byteAt_slice B (by omega), byteAt_slice B (by omega), hlow]

/-- The fields that `VALIDATE` latches are those of the frame in the buffer (R134). -/
theorem ofFn_memRead2 (s : State) :
    (Measurement.ofFn fun k => memRead2 s (4 + 2 * k.val)) = extract (rxBytes s 32) := by
  refine congrArg Measurement.ofFn (funext fun k => ?_)
  rw [memRead2_field, byteAt_rxBytes s (by omega), byteAt_rxBytes s (by omega)]

/-! ### `VALIDATE` is `validate_and_strip` (R142) -/

theorem validateAndStrip_of_sofOk_eq_false {B : List Byte} (h : sofOk (byteAt B 0) (byteAt B 1) = false) :
    validateAndStrip B = .err .startByteMismatch := by
  simp [validateAndStrip, h]

/-- What the block does with an outcome of `validate_and_strip`; `validateBuffer_of_full` ties it to the model. -/
def takeStripped (v : Stripped) (s : State) : State :=
  match v with
  | .ok P => State.latch (decodePayload P) s
  | .err .startByteMismatch => report .startByteMismatch s
  | .err .checksumMismatch => report .checksumMismatch s

/-- R142: the three checks left when the buffer is full are the function's. -/
theorem validateBuffer_of_full {s : State} (h : s.rxcnt = 32#6) :
    validateBuffer s = takeStripped (validateAndStrip (rxBytes s 32)) s := by
  have h0 : byteAt (rxBytes s 32) 0 = rxByte s 0 := byteAt_rxBytes s (by decide)
  have h1 : byteAt (rxBytes s 32) 1 = rxByte s 1 := byteAt_rxBytes s (by decide)
  have hcases := validateBuffer_cases s
  rw [← h0, ← h1, ← computed_rxBytes, ← received_rxBytes, ofFn_memRead2] at hcases
  obtain ⟨hpart, _⟩ | ⟨_, hsof, hend⟩ | ⟨_, hsof, hsum, hend⟩ | ⟨_, hsof, hsum, hend⟩ := hcases
  · exact absurd h hpart
  · rw [hend, validateAndStrip_of_sofOk_eq_false hsof, takeStripped]
  · rw [hend, validateAndStrip_of_computed_ne hsof hsum, takeStripped]
  · rw [hend, validateAndStrip_eq_ok_iff.mpr ⟨hsof, hsum, rfl⟩, takeStripped, decodePayload_slice]

/-- Settles O26: the end of `VALIDATE` is `takeStripped` of the function's outcome. -/
theorem validateAgreesWithValidateAndStrip : Obligations.ValidateAgreesWithValidateAndStrip := by
  intro s hfull
  refine ⟨State.returning none (validateBuffer s), rfl, ?_⟩
  rw [validateBuffer_of_full hfull]
  cases validateAndStrip (rxBytes s 32) with
  | ok P => exact ⟨rfl, rfl⟩
  | err e => cases e <;> rfl

/-! ### What acceptance says (R139) -/

theorem Result.ofStripped_eq_ok {v : Stripped} (h : Result.ofStripped v = .ok) : ∃ P, v = .ok P := by
  cases v with
  | ok P => exact ⟨P, rfl⟩
  | err e => cases e <;> cases h

/-- With a full buffer the views are the two checks of `VALIDATE` (R105, R116). -/
theorem views_of_full {s : State} (h : s.rxcnt = 32#6) :
    rxSum s = computed (rxBytes s 32) ∧ sofView s = sofOk (byteAt (rxBytes s 32) 0) (byteAt (rxBytes s 32) 1) := by
  refine ⟨?sum, ?sof⟩
  case sum =>
    rw [computed_rxBytes, rxSum, h]
    rfl
  case sof =>
    rw [byteAt_rxBytes s (by decide), byteAt_rxBytes s (by decide), sofView, h]
    rfl

/-- Settles O29: acceptance holds both checks, and `RESULT = 1` under the invariant is acceptance of the buffer. -/
theorem acceptedFramesSumUp : Obligations.AcceptedFramesSumUp := by
  refine ⟨fun B P _ haccepted => ?function, fun s hinv hok => ?block⟩
  case function =>
    obtain ⟨-, hsum, -⟩ := validateAndStrip_eq_ok_iff.mp haccepted
    exact hsum
  case block =>
    obtain ⟨P, haccepted⟩ := Result.ofStripped_eq_ok ((hinv.judgedOutcome (.inl hok)).symm.trans hok)
    obtain ⟨hsof, hsum, -⟩ := validateAndStrip_eq_ok_iff.mp haccepted
    obtain ⟨hrxsum, hsofview⟩ := views_of_full (hinv.judgedFull (.inl hok))
    exact ⟨by rw [hrxsum, hsum, received_rxBytes], hsofview.trans hsof⟩

end Sys2Proof.Machine
end

