-- ==== Sys2Proof/Proofs/ReferenceFrame.lean ====
section
/-! PROOF. The reference encoder and the receive path (44_validate.md R140): a frame built from a Measurement, loaded
byte by byte and validated, gives the Measurement back. -/

namespace Sys2Proof.Machine

open Sys2Proof.Safety

/-! ### The frame as bytes (R67, R130) -/

/-- The payload bytes of a field are its two halves, in the field's slot (R127). -/
theorem byteAt_payloadBytes (m : Measurement) (k : Fin 12) :
    byteAt (payloadBytes m) (2 * k.val) = hi8 (m.get k) ∧ byteAt (payloadBytes m) (2 * k.val + 1) = lo8 (m.get k) := by
  fin_cases k <;> exact ⟨rfl, rfl⟩

/-- R125, R127: `decode` undoes the encoder's payload. -/
theorem decodePayload_payloadBytes (m : Measurement) : decodePayload (payloadBytes m) = m := by
  refine congrArg Measurement.ofFn (a₂ := m.get) (funext fun k => ?_)
  obtain ⟨hhigh, hlow⟩ := byteAt_payloadBytes m k
  rw [hhigh, hlow, be16_hi8_lo8]

theorem length_referenceFrame (m : Measurement) (len trailer : U16) : (referenceFrame m len trailer).length = 32 :=
  length_mframeBytes ..

section Frame

variable (len : U16) (m : Measurement) (trailer chk : U16)

theorem computed_mframeBytes : computed (mframeBytes len m trailer chk) = sum16 (mframeBody len m trailer) := rfl

theorem received_mframeBytes : received (mframeBytes len m trailer chk) = chk := be16_hi8_lo8 chk

theorem slice_mframeBytes_payload : slice (mframeBytes len m trailer chk) 4 28 = payloadBytes m := rfl

/-- The reference frame passes both checks, and its payload is stripped out. -/
theorem validateAndStrip_referenceFrame : validateAndStrip (referenceFrame m len trailer) = .ok (payloadBytes m) :=
  validateAndStrip_eq_ok_iff.mpr
    ⟨rfl, (computed_mframeBytes ..).trans (received_mframeBytes ..).symm, slice_mframeBytes_payload ..⟩

end Frame

/-! ### `LOADFRAME` as operations (30_encoding.md R78) -/

@[simp] theorem pushByte_returned (b : Byte) (s : State) : (pushByte b s).returned = s.returned := by
  obtain ⟨_, h⟩ | ⟨_, h⟩ := pushByte_cases b s <;> rw [h] <;> rfl

theorem returning_eq_self {v : Option U16} {s : State} (h : s.returned = v) : State.returning v s = s := by
  subst h
  rfl

theorem performAll_cons {i : Instr} {s t : State} (h : exec i s = .next t) (is : List Instr) :
    performAll (i :: is) s = performAll is t := by
  simp only [performAll, h]

/-- Pushes as operations: where nothing was returned before, they are `pushByte` alone. -/
theorem performAll_push_append (B : List Byte) (is : List Instr) {s : State} (h : s.returned = none) :
    performAll (B.map .push ++ is) s = performAll is (B.foldl (fun t b => pushByte b t) s) := by
  induction B generalizing s with
  | nil => rfl
  | cons b rest ih =>
    have hpush : (pushByte b s).returned = none := (pushByte_returned b s).trans h
    rw [List.map_cons, List.cons_append, performAll_cons (exec_push b s), returning_eq_self hpush, ih hpush,
      List.foldl_cons]

theorem performAll_loadFrame_append (B : List Byte) (is : List Instr) (s : State) :
    performAll (loadFrame B ++ is) s = performAll is (loadBytes B (State.returning none s)) :=
  performAll_push_append B is (s := State.returning none (clearRx s)) rfl

theorem rxBytes_eq_of_byteAt {s : State} {B : List Byte} (h : ∀ i, i < B.length → rxByte s i = byteAt B i) :
    rxBytes s B.length = B := by
  refine List.ext_getElem (by simp [rxBytes]) fun i hi hB => ?_
  simp [rxBytes, h i hB, byteAt, hB]

/-- After `LOADFRAME` the buffer is full, and it is the frame. -/
theorem loadBytes_full {B : List Byte} (h : B.length = 32) (s : State) :
    (loadBytes B s).rxcnt = 32#6 ∧ rxBytes (loadBytes B s) 32 = B := by
  have hempty : (clearRx s).rxcnt.toNat = 0 := rfl
  obtain ⟨hcount, hbytes, -⟩ := pushAll_spec B (clearRx s) (by omega)
  refine ⟨BitVec.eq_of_toNat_eq ?count, ?bytes⟩
  case count =>
    rw [hempty, h] at hcount
    exact hcount
  case bytes =>
    rw [← h]
    refine rxBytes_eq_of_byteAt fun i hi => (hbytes i).trans ?_
    rw [hempty, if_pos (by omega), Nat.sub_zero]

/-- `LOADFRAME` and `VALIDATE` over any thirty-two bytes: the block takes the outcome of `validate_and_strip`. -/
theorem performAll_loadFrame_validate {B : List Byte} (h : B.length = 32) (s : State) :
    performAll (loadFrame B ++ [.validate]) s =
      .next (State.returning none (takeStripped (validateAndStrip B) (loadBytes B (State.returning none s)))) := by
  obtain ⟨hfull, hbytes⟩ := loadBytes_full h (State.returning none s)
  rw [performAll_loadFrame_append, performAll_cons (exec_validate _), validateBuffer_of_full hfull, hbytes]
  rfl

/-- Settles O30: the reference frame is accepted with the Measurement's payload, and the block takes that outcome. -/
theorem referenceFrameRoundTrip : Obligations.ReferenceFrameRoundTrip := by
  intro m len trailer
  have haccepted := validateAndStrip_referenceFrame len m trailer
  have hpayload := decodePayload_payloadBytes m
  refine ⟨⟨payloadBytes m, haccepted, hpayload⟩, fun s => ?_⟩
  rw [performAll_loadFrame_validate (length_referenceFrame m len trailer), haccepted]
  exact ⟨_, rfl, rfl, rfl, hpayload⟩

end Sys2Proof.Machine
end

