-- ==== Sys2Proof/Proofs/BitFlips.lean ====
section
/-! PROOF. One changed byte of an accepted frame (44_validate.md R141): a start byte no longer matches, a summed byte
moves the sum, and a byte of the checksum field moves the received value. -/

namespace Sys2Proof.Machine

/-! ### One byte changed -/

section Set

variable {B : List Byte} {i : Nat} {x : Byte}

theorem byteAt_set_self (h : i < B.length) : byteAt (B.set i x) i = x := by
  simp [byteAt, h]

theorem byteAt_set_of_ne {k : Nat} (h : i ≠ k) : byteAt (B.set i x) k = byteAt B k := by
  simp [byteAt, h]

/-- R103 law 4, at an offset: a changed byte changes the sum. -/
theorem sum16_set_ne (h : i < B.length) (hx : x ≠ byteAt B i) : sum16 (B.set i x) ≠ sum16 B := by
  have hbyte : byteAt B i = B[i] := List.getD_eq_getElem B 0#8 h
  have hsplit : B = B.take i ++ byteAt B i :: B.drop (i + 1) := by
    rw [hbyte, ← List.drop_eq_getElem_cons h, List.take_append_drop]
  have hset : B.set i x = B.take i ++ x :: B.drop (i + 1) := by
    rw [List.set_eq_take_append_cons_drop, if_pos h]
  rw [hset]
  conv_rhs => rw [hsplit]
  exact sum16_change_ne hx.symm _ _

theorem slice_zero_set (B : List Byte) (i n : Nat) (x : Byte) : slice (B.set i x) 0 n = (slice B 0 n).set i x := by
  simp [slice, List.take_set]

/-- A changed byte below offset 30 changes `computed`. -/
theorem computed_set_ne (hlength : B.length = 32) (h : i < 30) (hx : x ≠ byteAt B i) :
    computed (B.set i x) ≠ computed B := by
  have hsummed : (slice B 0 30).length = 30 := by simp [slice, hlength]
  have hbyte : byteAt (slice B 0 30) i = byteAt B i := by rw [byteAt_slice B h, Nat.zero_add]
  rw [computed, computed, msumLen, slice_zero_set]
  exact sum16_set_ne (hsummed.symm ▸ h) (hbyte.symm ▸ hx)

/-- A byte of the checksum field is not summed. -/
theorem computed_set_of_le (h : 30 ≤ i) : computed (B.set i x) = computed B := by
  have hbeyond : (slice B 0 30).length ≤ i := (length_slice_le B 0 30).trans h
  rw [computed, computed, msumLen, slice_zero_set, List.set_eq_of_length_le hbeyond]

theorem received_set_of_lt (h : i < 30) : received (B.set i x) = received B := by
  rw [received, received, byteAt_set_of_ne (by omega), byteAt_set_of_ne (by omega)]

theorem be16_inj {h l h' l' : Byte} (heq : be16 h l = be16 h' l') : h = h' ∧ l = l' := by
  constructor
  · rw [← hi8_be16 h l, heq, hi8_be16]
  · rw [← lo8_be16 h l, heq, lo8_be16]

/-- A changed byte of the checksum field changes `received`. -/
theorem received_set_ne (hlength : B.length = 32) (hlow : 30 ≤ i) (hhigh : i < 32) (hx : x ≠ byteAt B i) :
    received (B.set i x) ≠ received B := by
  intro heq
  obtain ⟨hthirty, hthirtyone⟩ := be16_inj heq
  obtain rfl | rfl : i = 30 ∨ i = 31 := by omega
  · rw [byteAt_set_self (by omega)] at hthirty
    exact hx hthirty
  · rw [byteAt_set_self (by omega)] at hthirtyone
    exact hx hthirtyone

/-- A changed start byte no longer passes. -/
theorem sofOk_set_start (hlength : B.length = 32) (h : i < 2) (hx : x ≠ byteAt B i)
    (hsof : sofOk (byteAt B 0) (byteAt B 1) = true) :
    sofOk (byteAt (B.set i x) 0) (byteAt (B.set i x) 1) = false := by
  obtain ⟨hstart0, hstart1⟩ := sofOk_eq_true_iff.mp hsof
  rw [sofOk_eq_false_iff]
  rintro ⟨hzero, hone⟩
  obtain rfl | rfl : i = 0 ∨ i = 1 := by omega
  · rw [byteAt_set_self (by omega)] at hzero
    exact hx (hzero.trans hstart0.symm)
  · rw [byteAt_set_self (by omega)] at hone
    exact hx (hone.trans hstart1.symm)

/-- One changed byte, to whatever value, and an accepted frame is rejected, by the check that covers the byte. -/
theorem validateAndStrip_set {P : List Byte} (hlength : B.length = 32) (haccepted : validateAndStrip B = .ok P)
    (hi : i < 32) (hx : x ≠ byteAt B i) :
    validateAndStrip (B.set i x) = if i < 2 then .err .startByteMismatch else .err .checksumMismatch := by
  obtain ⟨hsof, hsum, -⟩ := validateAndStrip_eq_ok_iff.mp haccepted
  split
  case isTrue hstart => exact validateAndStrip_of_sofOk_eq_false (sofOk_set_start hlength hstart hx hsof)
  case isFalse hstart =>
    have hzero : byteAt (B.set i x) 0 = byteAt B 0 := byteAt_set_of_ne (by omega)
    have hone : byteAt (B.set i x) 1 = byteAt B 1 := byteAt_set_of_ne (by omega)
    refine validateAndStrip_of_computed_ne (by rw [hzero, hone, hsof]) ?_
    by_cases hsummed : i < 30
    · rw [received_set_of_lt hsummed, ← hsum]
      exact computed_set_ne hlength hsummed hx
    · rw [computed_set_of_le (by omega), hsum]
      exact (received_set_ne hlength (by omega) hi hx).symm

end Set

/-! ### One bit flipped -/

/-- A byte with one bit flipped is another byte. -/
theorem xor_bit_ne (b : Byte) {j : Nat} (h : j < 8) : b ^^^ BitVec.ofNat 8 (2 ^ j) ≠ b := by
  have hbit : BitVec.ofNat 8 (2 ^ j) ≠ 0#8 := by interval_cases j <;> decide
  exact fun heq => hbit (by simpa using heq)

/-- Settles O31: a flipped bit changes its byte, and every changed byte is caught. -/
theorem singleBitFlipsAreRejected : Obligations.SingleBitFlipsAreRejected :=
  fun B _ hlength haccepted i _ hi hj => validateAndStrip_set hlength haccepted hi (xor_bit_ne (byteAt B i) hj)

end Sys2Proof.Machine
end

