-- ==== Sys2Proof/Proofs/CommandEncode.lean ====
section
/-! PROOF. The command encoder (45_command_encode.md): what a write of `TXREQ` spells (R144 to R147), the seven bytes of
the outbound frame (R143, R150), and the checksum they carry (R153). -/

namespace Sys2Proof.Machine

/-! ### What a write of `TXREQ` spells (R144 to R146) -/

/-- A written-out `TXREQ` word: the opcode above, the argument below. -/
theorem decode_txreq_bytes (op a : Byte) :
    decode [0x85#8, op, a] =
      if op = opChangeMode then .op (.encMode a)
      else if op = opRequestRead then .op (.encRead a)
      else if op = opSetSleep then .op (.encSleep a)
      else .illegal (.opcode op a) := by
  have hhead : (0x85#8 : Byte) = accHead true idxTxreq := by decide
  have hcmd : idxTxreq ≠ idxCmd := by decide
  have hrxdata : idxTxreq ≠ idxRxdata := by decide
  rw [hhead, decode_write_bytes, decodeWrite, if_neg hcmd, if_neg hrxdata, if_pos rfl, hi8_be16, lo8_be16]

theorem decode_encMode_bytes (a : Byte) : decode [0x85#8, opChangeMode, a] = .op (.encMode a) := by
  rw [decode_txreq_bytes, if_pos rfl]

theorem decode_encRead_bytes (a : Byte) : decode [0x85#8, opRequestRead, a] = .op (.encRead a) := by
  have hmode : opRequestRead ≠ opChangeMode := by decide
  rw [decode_txreq_bytes, if_neg hmode, if_pos rfl]

theorem decode_encSleep_bytes (a : Byte) : decode [0x85#8, opSetSleep, a] = .op (.encSleep a) := by
  have hmode : opSetSleep ≠ opChangeMode := by decide
  have hread : opSetSleep ≠ opRequestRead := by decide
  rw [decode_txreq_bytes, if_neg hmode, if_neg hread, if_pos rfl]

theorem exec_encMode (a : Byte) (s : State) :
    exec (.encMode a) s = .next (State.returning none (State.loadTx opChangeMode a s)) := rfl

theorem exec_encRead (a : Byte) (s : State) :
    exec (.encRead a) s = .next (State.returning none (State.loadTx opRequestRead a s)) := rfl

theorem exec_encSleep (a : Byte) (s : State) :
    exec (.encSleep a) s = .next (State.returning none (State.loadTx opSetSleep a s)) := rfl

/-- Settles O39: each of the three opcodes decodes to its operation, and each operation loads the transmit state with
its own opcode. -/
theorem encodeOperationsLatch : Obligations.EncodeOperationsLatch :=
  fun a s => ⟨decode_encMode_bytes a, decode_encRead_bytes a, decode_encSleep_bytes a,
    exec_encMode a s, exec_encRead a s, exec_encSleep a s⟩

/-! ### The illegal opcode (R147) -/

/-- An opcode that is none of the three is reported. -/
theorem regWrite_txreq_illegal {v : U16} (hmode : hi8 v ≠ opChangeMode) (hread : hi8 v ≠ opRequestRead)
    (hsleep : hi8 v ≠ opSetSleep) (s : State) : regWrite idxTxreq v s = report .illegalCommand s := by
  have hcmd : idxTxreq ≠ idxCmd := by decide
  have hrxdata : idxTxreq ≠ idxRxdata := by decide
  have hopcode : ¬ (hi8 v = opChangeMode ∨ hi8 v = opRequestRead ∨ hi8 v = opSetSleep) := by
    simp only [hmode, hread, hsleep, or_self, not_false_eq_true]
  rw [regWrite, if_neg hcmd, if_neg hrxdata, if_pos rfl, if_neg hopcode]

/-- The high byte of a value is an opcode only if the quotient by 256 is. -/
theorem hi8_ne_of_div_ne {v : U16} {c : Byte} (h : v.toNat / 256 ≠ c.toNat) : hi8 v ≠ c := by
  rintro rfl
  exact h (hi8_toNat v).symm

/-- Settles O13: the step is RegWrite on `TXREQ` (O11), which reports an opcode that is none of the three. -/
theorem illegalOpcodeOnlySetsIllcmd : Obligations.IllegalOpcodeOnlySetsIllcmd := by
  intro s rest v hmode hread hsleep hp
  have hreport (t : State) : regWrite idxTxreq v t = report .illegalCommand t :=
    regWrite_txreq_illegal (hi8_ne_of_div_ne hmode) (hi8_ne_of_div_ne hread) (hi8_ne_of_div_ne hsleep) t
  rw [accessStepsAsRegReadRegWrite s rest true idxTxreq v hp, access, if_pos rfl, hreport]
  rfl

/-! ### The outbound frame (R143, R150) -/

/-- The start bytes and the fixed high byte of the argument add `0x008F`. -/
theorem sum16_cframeBody (op a : Byte) : sum16 (cframeBody op a) = 0x008F#16 + zext16 op + zext16 a := by
  have hstart : zext16 start0 + zext16 start1 = 0x008F#16 := by decide
  have hargHi : zext16 argHi = 0#16 := by decide
  simp only [cframeBody, sum16_cons, sum16_nil, hargHi, BitVec.zero_add, BitVec.add_zero, ← BitVec.add_assoc, hstart]

/-- The outbound frame byte by byte. -/
theorem txFrame_eq (s : State) :
    txFrame s = [0x42#8, 0x4D#8, s.txop, 0x00#8, s.txarg, hi8 (0x008F#16 + zext16 s.txop + zext16 s.txarg),
      lo8 (0x008F#16 + zext16 s.txop + zext16 s.txarg)] := by
  rw [← sum16_cframeBody]
  rfl

/-- Each of the reads of `RDTX` returns its byte of the frame and leaves the state. -/
theorem exec_rdtx (i : Fin 7) (s : State) :
    exec (rdtx.get i) s = .next { s with returned := some (zext16 (byteAt (txFrame s) i)) } := by
  fin_cases i <;> rfl

/-- Settles O40: the reads return the frame's bytes, which `txFrame_eq` spells out. -/
theorem outboundFrameReads : Obligations.OutboundFrameReads := by
  intro s
  have hread (i : Fin 7) := exec_rdtx i s
  rw [txFrame_eq] at hread
  exact ⟨hread 0, hread 1, hread 2, hread 3, hread 4, hread 5, hread 6⟩

/-! ### Its checksum (R153) -/

theorem slice_txFrame_body (s : State) : slice (txFrame s) 0 5 = cframeBody s.txop s.txarg := rfl

/-- The last two bytes of the frame join to the sum they were split from. -/
theorem be16_txFrame_checksum (s : State) :
    be16 (byteAt (txFrame s) 5) (byteAt (txFrame s) 6) = sum16 (cframeBody s.txop s.txarg) :=
  be16_hi8_lo8 (sum16 (cframeBody s.txop s.txarg))

/-- Settles O41: the checksum field and the summed slice are both about the body of the frame, whose sum does not
wrap. -/
theorem outboundChecksumHolds : Obligations.OutboundChecksumHolds := by
  refine ⟨by rw [txFrame_eq]; decide, fun s => ?_⟩
  rw [slice_txFrame_body]
  exact ⟨be16_txFrame_checksum s, sum16_cframeBody_toNat s.txop s.txarg⟩

end Sys2Proof.Machine
end

