-- ==== Sys2Proof/Proofs/ResetValues.lean ====
section
/-! PROOF. The state after reset and what the host reads of it (70_reset_and_hazards.md R196): the reads of `RDFIELDS`
and `RDTX` in every state, then at the reset values. -/

namespace Sys2Proof.Machine

/-! ### Several reads in order (R78) -/

/-- Reads that leave the state return the values it has for their indices. -/
theorem regReads_eq_map {idxs : List Idx} {f : Idx → U16} {s : State}
    (hread : ∀ i ∈ idxs, regRead i s = (s, f i)) : regReads idxs s = (s, idxs.map f) := by
  induction idxs with
  | nil => rfl
  | cons i rest ih =>
    obtain ⟨hfirst, hrest⟩ := List.forall_mem_cons.mp hread
    rw [regReads, hfirst, ih hrest, List.map_cons]

theorem regRead_field {idx : Idx} (hlo : 0x10 ≤ idx.toNat) (hhi : idx.toNat ≤ 0x1B) (s : State) :
    regRead idx s = (s, s.fields.get (Fin.ofNat 12 (idx.toNat - 0x10))) := by
  have other (i : Idx) (hi : i.toNat < 0x10) : idx ≠ i := by rintro rfl; omega
  rw [regRead, if_neg (other idxStatus (by decide)), if_neg (other idxRxcnt (by decide)),
    if_neg (other idxRxsum (by decide)), if_pos ⟨hlo, hhi⟩]

theorem regRead_rxsum (s : State) : regRead idxRxsum s = (s, rxSum s) := rfl

/-- `RDFIELDS` returns the field bank in frame order. -/
theorem regReads_fieldIndices (s : State) : regReads fieldIndices s = (s, s.fields.toList) := by
  have hrange : ∀ i ∈ fieldIndices, 0x10 ≤ i.toNat ∧ i.toNat ≤ 0x1B := by decide
  exact regReads_eq_map fun i hi => regRead_field (hrange i hi).1 (hrange i hi).2 s

/-- `RDTX` returns the outbound frame byte by byte. -/
theorem regReads_txbyteIndices (s : State) : regReads txbyteIndices s = (s, (txFrame s).map zext16) := by
  have hrange : ∀ i ∈ txbyteIndices, 0x20 ≤ i.toNat ∧ i.toNat ≤ 0x26 := by decide
  exact regReads_eq_map fun i hi => regRead_txbyte (hrange i hi).1 (hrange i hi).2 s

/-! ### At the reset values (R196) -/

theorem regRead_rxsum_reset : regRead idxRxsum State.reset = (State.reset, 0x0000#16) := by
  obtain ⟨-, -, hsum⟩ := views_of_rxcnt_zero (s := State.reset) rfl
  rw [regRead_rxsum, hsum]

theorem regReads_fieldIndices_reset :
    (regReads fieldIndices State.reset).2 = List.replicate 12 0x0000#16 := by
  rw [regReads_fieldIndices]
  rfl

/-- The outbound frame before any command was encoded (R202). -/
theorem regReads_txbyteIndices_reset : (regReads txbyteIndices State.reset).2 =
    [0x0042#16, 0x004D#16, 0x0000#16, 0x0000#16, 0x0000#16, 0x0000#16, 0x008F#16] := by
  obtain ⟨hframe, -⟩ := outboundChecksumHolds
  rw [regReads_txbyteIndices, hframe]
  rfl

/-- Settles O17: the stored values are `State.reset`'s own, and each read has its value by the law of its register;
the reset state is what a reset makes of itself. -/
theorem resetRegisterValues : Obligations.ResetRegisterValues :=
  ⟨rfl, rfl, rfl, Measurement.get_zero, rfl, rfl, rfl, rfl, rfl, rfl, regRead_status_resetBlock State.reset,
    regRead_rxcnt State.reset, regRead_rxsum_reset, regReads_fieldIndices_reset, regReads_txbyteIndices_reset⟩

end Sys2Proof.Machine
end

