-- ==== Sys2Proof/Proofs/DecodeEncode.lean ====
section
/-! PROOF. Encoding and decoding (30_encoding.md R60 to R67): every instruction is read back from its bytes, and a wire
frame that decodes is the bytes of its instruction. -/

namespace Sys2Proof.Machine

/-! ### Halves of bytes and of values -/

@[simp] theorem lo8_zext16 (b : Byte) : lo8 (zext16 b) = b :=
  BitVec.eq_of_toNat_eq (by rw [lo8_toNat, zext16_toNat, Nat.mod_eq_of_lt b.isLt])

@[simp] theorem be16Bytes_be16 (h l : Byte) : be16Bytes (be16 h l) = [h, l] := by
  rw [be16Bytes, hi8_be16, lo8_be16]

/-! ### Lists by their bytes -/

/-- A byte array is its bytes in order. -/
theorem map_byteAt_range (B : List Byte) : (List.range B.length).map (byteAt B) = B :=
  List.ext_getElem (by simp) fun i _ hi => by simp [byteAt, hi]

/-- R125, R127: `payloadBytes` undoes `decode`, slot by slot. -/
theorem payloadBytes_decodePayload {P : List Byte} (h : P.length = 24) : payloadBytes (decodePayload P) = P := by
  have hbytes : (List.range 24).map (byteAt P) = P := h ▸ map_byteAt_range P
  calc payloadBytes (decodePayload P)
    _ = (List.finRange 12).flatMap fun k => be16Bytes (be16 (byteAt P (2 * k.val)) (byteAt P (2 * k.val + 1))) := rfl
    _ = (List.range 24).map (byteAt P) := by simp only [be16Bytes_be16]; rfl
    _ = P := hbytes

/-! ### Access words (R61) -/

/-- An instruction that is written as an access word is read back if the register map has it at that access. -/
theorem decode_encode_write {i : Instr} {idx : Idx} {v : U16} (he : encode i = accBytes (accWord true idx v))
    (hd : decodeWrite idx v = .op i) : decode (encode i) = .op i := by
  rw [he, decode_accWord_write, hd]

theorem decode_encode_read {i : Instr} (h : i ∈ Safety.readOps) : decode (encode i) = .op i := by
  fin_cases h <;> exact (decode_accWord_read _ _).trans rfl

/-- A write of `TXREQ`, opcode above and argument below. -/
theorem decodeWrite_txreq (op a : Byte) : decodeWrite idxTxreq (op ++ a) =
    if op = opChangeMode then .op (.encMode a)
    else if op = opRequestRead then .op (.encRead a)
    else if op = opSetSleep then .op (.encSleep a)
    else .illegal (.opcode op a) := by
  have hhead : (0x85#8 : Byte) = accHead true idxTxreq := by decide
  rw [← decode_txreq_bytes, hhead, decode_write_bytes, be16]

/-! ### Command frames (R65, R66) -/

/-- The three command-frame rows, with the opcode of each. -/
def CframeRow (i : Instr) (op a : Byte) (chk : U16) : Prop :=
  (i = .cframeChangeMode a chk ∧ op = opChangeMode) ∨ (i = .cframeRequestReadPassive a chk ∧ op = opRequestRead) ∨
    (i = .cframeSetSleep a chk ∧ op = opSetSleep)

theorem encode_of_cframeRow {i : Instr} {op a : Byte} {chk : U16} (h : CframeRow i op a chk) :
    encode i = cframeBytes op a chk := by
  obtain ⟨rfl, rfl⟩ | ⟨rfl, rfl⟩ | ⟨rfl, rfl⟩ := h <;> rfl

/-- Seven bytes with the fixed bytes of R65 in place decode by their opcode. -/
theorem decode_cframeBytes (op a : Byte) (chk : U16) : decode (cframeBytes op a chk) =
    if op = opChangeMode then .op (.cframeChangeMode a chk)
    else if op = opRequestRead then .op (.cframeRequestReadPassive a chk)
    else if op = opSetSleep then .op (.cframeSetSleep a chk)
    else .refused .notACommandFrame := by
  have hframe : decode (cframeBytes op a chk) = decodeCframe (cframeBytes op a chk) := rfl
  have hfixed : byteAt (cframeBytes op a chk) 0 = start0 ∧ byteAt (cframeBytes op a chk) 1 = start1 ∧
      byteAt (cframeBytes op a chk) 3 = argHi := ⟨rfl, rfl, rfl⟩
  have hop : byteAt (cframeBytes op a chk) 2 = op := rfl
  have harg : byteAt (cframeBytes op a chk) 4 = a := rfl
  have hchk : be16 (byteAt (cframeBytes op a chk) 5) (byteAt (cframeBytes op a chk) 6) = chk := be16_hi8_lo8 chk
  rw [hframe, decodeCframe, if_pos hfixed, hop, harg, hchk]

theorem decode_encode_of_cframeRow {i : Instr} {op a : Byte} {chk : U16} (h : CframeRow i op a chk) :
    decode (encode i) = .op i := by
  rw [encode_of_cframeRow h, decode_cframeBytes]
  obtain ⟨rfl, rfl⟩ | ⟨rfl, rfl⟩ | ⟨rfl, rfl⟩ := h <;> rfl

/-- Everything the decoder makes of seven bytes: a refusal, or the row that the bytes spell. -/
theorem decodeCframe_cases (B : List Byte) :
    decodeCframe B = .refused .notACommandFrame ∨
      ∃ i, decodeCframe B = .op i ∧
        CframeRow i (byteAt B 2) (byteAt B 4) (be16 (byteAt B 5) (byteAt B 6)) ∧
        byteAt B 0 = start0 ∧ byteAt B 1 = start1 ∧ byteAt B 3 = argHi := by
  unfold decodeCframe
  split
  case isFalse => exact .inl rfl
  case isTrue hfixed =>
    split
    case isTrue hmode => exact .inr ⟨_, rfl, .inl ⟨rfl, hmode⟩, hfixed⟩
    case isFalse =>
      split
      case isTrue hread => exact .inr ⟨_, rfl, .inr (.inl ⟨rfl, hread⟩), hfixed⟩
      case isFalse =>
        split
        case isTrue hsleep => exact .inr ⟨_, rfl, .inr (.inr ⟨rfl, hsleep⟩), hfixed⟩
        case isFalse => exact .inl rfl

/-- The seven bytes of a command frame are those of the row it spells. -/
theorem encode_of_decodeCframe {B : List Byte} {i : Instr} (hlength : B.length = 7) (hd : decodeCframe B = .op i) :
    encode i = B := by
  have hbytes : (List.range 7).map (byteAt B) = B := hlength ▸ map_byteAt_range B
  obtain hrefused | ⟨j, hj, hrow, h0, h1, h3⟩ := decodeCframe_cases B
  · cases hrefused.symm.trans hd
  · obtain rfl : j = i := Decoded.op.inj (hj.symm.trans hd)
    rw [encode_of_cframeRow hrow, cframeBytes, cframeBody, be16Bytes_be16, ← h0, ← h1, ← h3]
    exact hbytes

/-! ### Measurement frames (R67) -/

theorem decode_mframeBytes (len : U16) (m : Measurement) (trailer chk : U16) :
    decode (mframeBytes len m trailer chk) = .op (.mframe len m trailer chk) := by
  have hframe : decode (mframeBytes len m trailer chk) =
    .op (.mframe (be16 (hi8 len) (lo8 len)) (extract (mframeBytes len m trailer chk))
      (be16 (hi8 trailer) (lo8 trailer)) (received (mframeBytes len m trailer chk))) := rfl
  have hfields : extract (mframeBytes len m trailer chk) = m := by
    rw [← decodePayload_slice, slice_mframeBytes_payload, decodePayload_payloadBytes]
  rw [hframe, hfields, received_mframeBytes, be16_hi8_lo8, be16_hi8_lo8]

/-- The thirty-two bytes of a measurement frame are those of the row it spells. -/
theorem encode_of_decodeMframe {B : List Byte} {i : Instr} (hlength : B.length = 32) (hd : decodeMframe B = .op i) :
    encode i = B := by
  have hbytes : (List.range 32).map (byteAt B) = B := hlength ▸ map_byteAt_range B
  have hpayload : payloadBytes (extract B) = slice B 4 28 := by
    rw [← decodePayload_slice, payloadBytes_decodePayload (by simp [slice, hlength])]
  have hslice : slice B 4 28 = (List.range 24).map fun k => byteAt B (4 + k) := by
    conv_lhs => rw [← hbytes]
    rfl
  unfold decodeMframe at hd
  split at hd
  case isFalse => cases hd
  case isTrue hstart =>
    obtain ⟨h0, h1⟩ := hstart
    cases hd
    rw [encode, mframeBytes, mframeBody, received, hpayload, hslice, be16Bytes_be16, be16Bytes_be16, be16Bytes_be16,
      ← h0, ← h1]
    exact hbytes

/-! ### The statements -/

/-- The encoder loses no instruction, whatever its checksum field holds. -/
theorem decode_encode (i : Instr) : decode (encode i) = .op i := by
  cases i with
  | rxclr | validate | softrst => exact decode_encode_write rfl rfl
  | push b => exact decode_encode_write rfl (congrArg (Decoded.op ∘ Instr.push) (lo8_zext16 b))
  | encMode a | encRead a | encSleep a => exact decode_encode_write rfl (decodeWrite_txreq _ a)
  | cframeChangeMode a chk => exact decode_encode_of_cframeRow (.inl ⟨rfl, rfl⟩)
  | cframeRequestReadPassive a chk => exact decode_encode_of_cframeRow (.inr (.inl ⟨rfl, rfl⟩))
  | cframeSetSleep a chk => exact decode_encode_of_cframeRow (.inr (.inr ⟨rfl, rfl⟩))
  | mframe len m trailer chk => exact decode_mframeBytes len m trailer chk
  | _ => exact decode_encode_read (by simp [Safety.readOps])

/-- Settles O1: the round trip holds of every instruction, so of the well-formed ones. -/
theorem decodeEncodeRoundTrip : Obligations.DecodeEncodeRoundTrip := fun i _ => decode_encode i

/-- Settles O5: the length picks the format, and each format's bytes are those of the row they spell. -/
theorem frameDecodingLosesNoByte : Obligations.FrameDecodingLosesNoByte := by
  intro B i hlength hd
  obtain hseven | hlong := hlength
  · exact encode_of_decodeCframe hseven (by simpa [decode, hseven] using hd)
  · exact encode_of_decodeMframe hlong (by simpa [decode, hlong] using hd)

/-- Settles O3: each word by the law of its register or of its frame. -/
theorem writtenWordsDecode : Obligations.WrittenWordsDecode :=
  ⟨decode_rxclr_bytes 0xFF#8, decode_validate_bytes 0x01#8, decode_push_bytes 0xAB#8 0x42#8,
    decode_encSleep_bytes 0x01#8, decode_rdStatus_bytes 0x12#8 0x34#8,
    decode_read_bytes (idxField0 + 11#6) 0x00#8 0x00#8, decode_read_bytes (idxTxbyte0 + 6#6) 0x00#8 0x00#8, decode_cframeBytes opSetSleep 0x8D#8 0x0200#16⟩

/-! ### The payload (43_field_extract.md R123, R125) -/

/-- Settles O35: `payloadBytes` is inverse to `decode` on both sides. -/
theorem decodeIsBijection : Obligations.DecodeIsBijection := by
  refine ⟨fun P Q hP hQ heq => ?_, fun m => ⟨payloadBytes m, rfl, decodePayload_payloadBytes m⟩⟩
  rw [← payloadBytes_decodePayload hP, heq, payloadBytes_decodePayload hQ]

/-- Settles O36: offset `i` of the payload is offset `4 + i` of the frame. -/
theorem extractIsDecodeOfPayload : Obligations.ExtractIsDecodeOfPayload :=
  fun B _ => (decodePayload_slice B).symm

end Sys2Proof.Machine
end

