-- ==== Sys2Proof/Proofs/OneAccess.lean ====
section
/-! PROOF. One access a step (00_scope.md R7, 20_memory.md R54): what a step takes from the host's queue, that it is one
RegRead or RegWrite, and that the rest of the queue stays. -/

namespace Sys2Proof.Machine

open Sys2Proof.Safety

/-! ### The three kinds of step that perform no instruction's bytes -/

theorem step_idle {s : State} (hp : s.pending = []) : step s = .next s := by
  simp only [step, fetch, hp]

theorem step_hardReset {s : State} {rest : List HostEvent} (hp : s.pending = .hardReset :: rest) :
    step s = .next (resetBlock (State.withPending rest s)) := by
  simp only [step, fetch, hp]

theorem step_readOutcome {s : State} {rest : List HostEvent} (hp : s.pending = .readOutcome :: rest) :
    step s = .next (readOutcome (State.withPending rest s)) := by
  simp only [step, fetch, hp]

/-- Settles O7: the step takes the access from the queue and performs what it decodes to. -/
theorem stepPerformsDecodedInstruction : Obligations.StepPerformsDecodedInstruction :=
  fun _ _ _ _ hp hd => step_issue hp hd

/-- Settles O15: with nothing to take from the queue the step ends where it began. -/
theorem idleBlockKeepsItsState : Obligations.IdleBlockKeepsItsState := fun _ => step_idle

/-- Settles O16: both are `resetBlock` on the state whose queue is the rest. -/
theorem hardResetActsAsSoftrst : Obligations.HardResetActsAsSoftrst :=
  fun s rest hp => ⟨resetBlock (State.withPending rest s), step_hardReset hp, exec_softrst _⟩

/-! ### What a register access can do (R85, R86) -/

/-- What RegWrite does to the state; `regWrite_effect` says that nothing else happens. -/
inductive WriteEffect (s : State) : State → Prop where
  | clear : WriteEffect s (clearRx s)
  | judge : WriteEffect s (validateBuffer s)
  | reset : WriteEffect s (resetBlock s)
  | push (b : Byte) : WriteEffect s (pushByte b s)
  | load (op a : Byte) (hop : op = opChangeMode ∨ op = opRequestRead ∨ op = opSetSleep) :
      WriteEffect s (State.loadTx op a s)
  | illegalCommand : WriteEffect s (report .illegalCommand s)
  | illegalAccess : WriteEffect s (report .illegalAccess s)

theorem regWrite_effect (idx : Idx) (v : U16) (s : State) : WriteEffect s (regWrite idx v s) := by
  by_cases hcmd : idx = idxCmd
  · rw [regWrite, if_pos hcmd]
    split_ifs
    · exact .clear
    · exact .judge
    · exact .reset
    · exact .illegalCommand
  by_cases hrxdata : idx = idxRxdata
  · rw [hrxdata, regWrite_rxdata]
    exact .push _
  by_cases htxreq : idx = idxTxreq
  · rw [regWrite, if_neg hcmd, if_neg hrxdata, if_pos htxreq]
    split_ifs with hop
    · exact .load _ _ hop
    · exact .illegalCommand
  · rw [regWrite_other hcmd hrxdata htxreq]
    exact .illegalAccess

/-- RegRead leaves the state, or reports that the index is illegal. -/
theorem regRead_state (idx : Idx) (s : State) :
    (regRead idx s).1 = s ∨ (regRead idx s).1 = report .illegalAccess s := by
  unfold regRead
  split_ifs
  any_goals exact .inl rfl
  exact .inr rfl

@[simp] theorem pushByte_pending (b : Byte) (s : State) : (pushByte b s).pending = s.pending := by
  obtain ⟨_, h⟩ | ⟨_, h⟩ := pushByte_cases b s <;> rw [h] <;> rfl

theorem WriteEffect.pending {s t : State} (h : WriteEffect s t) : t.pending = s.pending := by
  cases h with
  | judge =>
    obtain ⟨-, -, -, -, -, hpending⟩ := validateBuffer_frame s
    exact hpending
  | push b => exact pushByte_pending b s
  | _ => rfl

/-- The host's queue is none of the registers' business (log 1). -/
theorem access_pending (wr : Bool) (idx : Idx) (data : U16) (s : State) :
    (access wr idx data s).pending = s.pending := by
  cases wr with
  | false =>
    change (regRead idx s).1.pending = s.pending
    obtain h | h := regRead_state idx s <;> rw [h]
    rfl
  | true =>
    change (regWrite idx data s).pending = s.pending
    exact (regWrite_effect idx data s).pending

/-! ### An access does not read the queue -/

theorem pushByte_withPending (b : Byte) (q : List HostEvent) (s : State) :
    pushByte b (State.withPending q s) = State.withPending q (pushByte b s) := by
  have h := pushByte_withPending_returning b q s.returned s
  rwa [returning_eq_self rfl, returning_eq_self (pushByte_returned b s)] at h

@[simp] theorem validateBuffer_returned (s : State) : (validateBuffer s).returned = s.returned := by
  obtain ⟨_, h⟩ | ⟨_, _, h⟩ | ⟨_, _, _, h⟩ | ⟨_, _, _, h⟩ := validateBuffer_cases s <;> rw [h] <;> rfl

theorem validateBuffer_withPending (q : List HostEvent) (s : State) :
    validateBuffer (State.withPending q s) = State.withPending q (validateBuffer s) := by
  have h := validateBuffer_withPending_returning q s.returned s
  rwa [returning_eq_self rfl, returning_eq_self (validateBuffer_returned s)] at h

theorem regRead_withPending (idx : Idx) (q : List HostEvent) (s : State) :
    regRead idx (State.withPending q s) = (State.withPending q (regRead idx s).1, (regRead idx s).2) := by
  unfold regRead
  split_ifs <;> rfl

theorem regWrite_withPending (idx : Idx) (v : U16) (q : List HostEvent) (s : State) :
    regWrite idx v (State.withPending q s) = State.withPending q (regWrite idx v s) := by
  unfold regWrite
  rw [validateBuffer_withPending, pushByte_withPending]
  split_ifs <;> rfl

theorem access_withPending (wr : Bool) (idx : Idx) (data : U16) (q : List HostEvent) (s : State) :
    access wr idx data (State.withPending q s) = State.withPending q (access wr idx data s) := by
  cases wr with
  | false =>
    rw [access, if_neg Bool.false_ne_true, regRead_withPending]
    rfl
  | true =>
    rw [access, if_pos rfl, regWrite_withPending]
    rfl

/-- Accesses that the host goes on with, put before the rest of its queue. -/
theorem following_access_withPending (wr : Bool) (idx : Idx) (data : U16) (es q : List HostEvent) (s : State) :
    State.following es (access wr idx data (State.withPending q s)) =
      State.withPending (es ++ q) (access wr idx data s) := by
  rw [access_withPending]
  rfl

/-! ### Bytes as one access -/

/-- An access word with bit 22 clear is the access its fields name. -/
theorem performDecoded_decodeAcc {w : AccWord} (h : accBit22 w = false) (s : State) :
    performDecoded (decodeAcc w) s = .next (access (accW w) (accIdx w) (accData w) s) := by
  rw [decodeAcc, if_neg (by rw [h]; exact Bool.false_ne_true)]
  cases hw : accW w with
  | false => exact performDecoded_decodeRead (accIdx w) s
  | true => exact performDecoded_decodeWrite (accIdx w) (accData w) s

/-- R144 to R146 on a `TXREQ` value in two halves. -/
theorem regWrite_txreq {op : Byte} (hop : op = opChangeMode ∨ op = opRequestRead ∨ op = opSetSleep) (a : Byte)
    (s : State) : regWrite idxTxreq (be16 op a) s = State.loadTx op a s := by
  have hcmd : idxTxreq ≠ idxCmd := by decide
  have hrxdata : idxTxreq ≠ idxRxdata := by decide
  rw [regWrite, if_neg hcmd, if_neg hrxdata, if_pos rfl, hi8_be16, lo8_be16, if_pos hop]

theorem CframeRow.legal {i : Instr} {op a : Byte} {chk : U16} (h : CframeRow i op a chk) :
    op = opChangeMode ∨ op = opRequestRead ∨ op = opSetSleep :=
  h.imp And.right (Or.imp And.right And.right)

theorem exec_of_cframeRow {i : Instr} {op a : Byte} {chk : U16} (h : CframeRow i op a chk) (s : State) :
    exec i s = .next (emitCommand op a s) := by
  obtain ⟨rfl, rfl⟩ | ⟨rfl, rfl⟩ | ⟨rfl, rfl⟩ := h <;> rfl

/-- A command-frame row is a write of `TXREQ`, which `RDTX` follows (R77, log 6). -/
theorem exec_cframeRow_access {i : Instr} {op a : Byte} {chk : U16} (h : CframeRow i op a chk) (s : State) :
    exec i s = .next (State.following (accessesOf rdtx) (access true idxTxreq (be16 op a) s)) := by
  rw [exec_of_cframeRow h, access, if_pos rfl, regWrite_txreq h.legal, emitCommand]

/-- A measurement-frame row is a write of `CMD`, which the reception follows (R77, log 6). -/
theorem exec_mframe_access (len : U16) (m : Measurement) (trailer chk : U16) (s : State) :
    exec (.mframe len m trailer chk) s =
      .next (State.following (receptionOf (mframeBytes len m trailer chk))
        (access true idxCmd (zext16 codeRxclr) s)) := rfl

/-- Everything bytes can be, whatever the state they meet: refused, or one access with what the host goes on with. -/
theorem performDecoded_access (B : List Byte) :
    (∃ e, decode B = .refused e) ∨
      ∃ (wr : Bool) (idx : Idx) (data : U16) (es : List HostEvent),
        ∀ s, performDecoded (decode B) s = .next (State.following es (access wr idx data s)) := by
  unfold decode
  split
  case isTrue =>
    generalize byteAt B 0 ++ byteAt B 1 ++ byteAt B 2 = w
    cases h : accBit22 w with
    | false => exact .inr ⟨accW w, accIdx w, accData w, [], performDecoded_decodeAcc h⟩
    | true => exact .inl ⟨.bit22Set, decodeAcc_bit22 h⟩
  case isFalse =>
    split
    case isTrue =>
      obtain hrefused | ⟨i, hi, hrow, -⟩ := decodeCframe_cases B
      · exact .inl ⟨_, hrefused⟩
      · rw [hi]
        exact .inr ⟨true, idxTxreq, _, accessesOf rdtx, exec_cframeRow_access hrow⟩
    case isFalse =>
      split
      case isTrue =>
        unfold decodeMframe
        split
        case isTrue => exact .inr ⟨true, idxCmd, zext16 codeRxclr, _, exec_mframe_access _ _ _ _⟩
        case isFalse => exact .inl ⟨_, rfl⟩
      case isFalse => exact .inl ⟨_, rfl⟩

/-- The read of the outcome is a read of `STATUS`, which the reads of the fields may follow (R77, log 6). -/
theorem readOutcome_access (s : State) :
    readOutcome s = State.following (if s.result = .ok then accessesOf rdfields else [])
      (access false idxStatus 0#16 s) := by
  rw [readOutcome_eq]
  rfl

/-- Settles O9: an event that is no hard reset is the read of the outcome or bytes that are one access, and the access
does not read the queue it is taken from. -/
theorem eachStepIsOneAccess : Obligations.EachStepIsOneAccess := by
  intro s t e rest hp hne hstep
  cases e with
  | hardReset => exact absurd rfl hne
  | readOutcome =>
    rw [step_readOutcome hp, readOutcome_access, following_access_withPending] at hstep
    exact ⟨false, idxStatus, 0#16, _, (Host.Outcome.next.inj hstep).symm⟩
  | issue B =>
    obtain ⟨e, he⟩ | ⟨wr, idx, data, es, haccess⟩ := performDecoded_access B
    · cases (step_issue_refused hp he).symm.trans hstep
    · rw [step_issue_performDecoded hp, haccess, following_access_withPending] at hstep
      exact ⟨wr, idx, data, es, (Host.Outcome.next.inj hstep).symm⟩

/-! ### What an instruction leaves pending -/

/-- An access-word row is the access that its canonical word names. -/
theorem exec_eq_access {i : Instr} {wr : Bool} {idx : Idx} {data : U16}
    (he : encode i = accBytes (accWord wr idx data)) (s : State) : exec i s = .next (access wr idx data s) := by
  have hd : decodeAcc (accWord wr idx data) = .op i := by rw [← decode_accBytes, ← he, decode_encode]
  have h := performDecoded_decodeAcc (accBit22_accWord wr idx data) s
  rwa [hd, accW_accWord, accIdx_accWord, accData_accWord] at h

theorem encode_of_accRow {i : Instr} (h : accRow i ≠ none) :
    ∃ wr idx data, encode i = accBytes (accWord wr idx data) := by
  cases i with
  | cframeChangeMode | cframeRequestReadPassive | cframeSetSleep | mframe => exact absurd rfl h
  | _ => exact ⟨_, _, _, rfl⟩

theorem exec_pending_of_accRow {i : Instr} {s t : State} (hrow : accRow i ≠ none) (h : exec i s = .next t) :
    t.pending = s.pending := by
  obtain ⟨wr, idx, data, he⟩ := encode_of_accRow hrow
  obtain rfl := Host.Outcome.next.inj ((exec_eq_access he s).symm.trans h)
  exact access_pending wr idx data s

/-- What an instruction puts before the queue it found. -/
theorem exec_pending {i : Instr} {s t : State} (h : exec i s = .next t) : ∃ es, t.pending = es ++ s.pending := by
  cases exec_effect h with
  | judge =>
    obtain ⟨-, -, -, -, -, hpending⟩ := validateBuffer_frame s
    exact ⟨[], hpending⟩
  | push b => exact ⟨[], pushByte_pending b s⟩
  | emit => exact ⟨accessesOf rdtx, rfl⟩
  | receive _ B => exact ⟨receptionOf B, rfl⟩
  | _ => exact ⟨[], rfl⟩

/-- Settles O8: whatever is put before the queue, an access row, being one access, puts nothing. -/
theorem laterAccessesStayPending : Obligations.LaterAccessesStayPending := by
  intro i s t h
  obtain ⟨es, hes⟩ := exec_pending h
  refine ⟨es, hes, fun hrow => ?_⟩
  rw [exec_pending_of_accRow hrow h] at hes
  exact List.self_eq_append_left.mp hes

end Sys2Proof.Machine
end

