-- ==== Sys2Proof/Proofs/Invariant.lean ====
section
/-! PROOF. The invariants of R39 (10_state.md): they hold after reset, every register access keeps them, and so does
every step. -/

namespace Sys2Proof.Machine

open Sys2Proof.Safety

/-! ### What the invariant does not speak of -/

/-- The invariant names neither the sticky flags nor the model's own two fields. -/
theorem inv_of_unnamed {s : State} (h : Inv s) (q : List HostEvent) (v : Option U16) (illcmd badacc : Bool) :
    Inv { s with pending := q, returned := v, illcmd := illcmd, badacc := badacc } :=
  ⟨h.buffer, h.count, h.judgedFull, h.judgedOutcome, h.okFields, h.overrunFull, h.txEncoded, h.txEmpty,
    h.noMeasurement, h.emptyBuffer⟩

theorem inv_withPending {s : State} (h : Inv s) (q : List HostEvent) : Inv (State.withPending q s) :=
  inv_of_unnamed h q s.returned s.illcmd s.badacc

theorem inv_returning {s : State} (h : Inv s) (v : Option U16) : Inv (State.returning v s) :=
  inv_of_unnamed h s.pending v s.illcmd s.badacc

theorem inv_illegalCommand {s : State} (h : Inv s) : Inv (report .illegalCommand s) :=
  inv_of_unnamed h s.pending s.returned true s.badacc

theorem inv_illegalAccess {s : State} (h : Inv s) : Inv (report .illegalAccess s) :=
  inv_of_unnamed h s.pending s.returned s.illcmd true

/-! ### Reset and `RXCLR` -/

/-- Settles O18: nothing is received, nothing was judged, and every field is zero. -/
theorem resetSatisfiesInvariant : Obligations.ResetSatisfiesInvariant where
  buffer := Memory.reset_wf
  count := by decide
  judgedFull := by decide
  judgedOutcome := by decide
  okFields := by decide
  overrunFull := by decide
  txEncoded := by decide
  txEmpty := fun _ => ⟨rfl, rfl⟩
  noMeasurement := fun _ => ⟨Measurement.get_zero, by decide⟩
  emptyBuffer := fun _ => ⟨.inl rfl, rfl⟩

theorem inv_resetBlock (s : State) : Inv (resetBlock s) :=
  inv_withPending resetSatisfiesInvariant s.pending

/-- Of the three judged outcomes a `RESULT` that is `NONE` or `INCOMPLETE` is none. -/
theorem not_judged {r : Result} (h : r = .none ∨ r = .incomplete) :
    ¬ (r = .ok ∨ r = .startMismatch ∨ r = .checksumMismatch) := by
  obtain rfl | rfl := h <;> decide

theorem inv_clearRx {s : State} (h : Inv s) : Inv (clearRx s) where
  buffer := h.buffer
  count := by simp
  judgedFull hjudged := absurd hjudged (not_judged (.inl rfl))
  judgedOutcome hjudged := absurd hjudged (not_judged (.inl rfl))
  okFields hok := absurd (.inl hok) (not_judged (.inl rfl))
  overrunFull hovr := by simp at hovr
  txEncoded := h.txEncoded
  txEmpty := h.txEmpty
  noMeasurement hfvalid := ⟨(h.noMeasurement hfvalid).1, by simp⟩
  emptyBuffer _ := ⟨.inl rfl, rfl⟩

/-! ### `ENC.*` -/

theorem inv_loadTx {s : State} (h : Inv s) {op : Byte} (hop : op = opChangeMode ∨ op = opRequestRead ∨ op = opSetSleep)
    (a : Byte) : Inv (State.loadTx op a s) where
  buffer := h.buffer
  count := h.count
  judgedFull := h.judgedFull
  judgedOutcome := h.judgedOutcome
  okFields := h.okFields
  overrunFull := h.overrunFull
  txEncoded _ := hop
  txEmpty hclear := by simp at hclear
  noMeasurement := h.noMeasurement
  emptyBuffer := h.emptyBuffer

/-! ### `PUSH` -/

/-- A buffer that is not full has not been judged and has not overrun. -/
theorem inv_storeByte {s : State} (h : Inv s) (hroom : s.rxcnt.toNat < 32) (b : Byte) : Inv (State.storeByte b s) := by
  have hnotFull : s.rxcnt ≠ 32#6 := by rintro hfull; simp [hfull] at hroom
  have hunjudged : ¬ (s.result = .ok ∨ s.result = .startMismatch ∨ s.result = .checksumMismatch) :=
    fun hjudged => hnotFull (h.judgedFull hjudged)
  have hcount := rxcnt_storeByte_toNat b s hroom
  exact
    { buffer := Memory.write_wf _ _ b h.buffer hroom
      count := by omega
      judgedFull := fun hjudged => absurd hjudged hunjudged
      judgedOutcome := fun hjudged => absurd hjudged hunjudged
      okFields := fun hok => absurd (.inl hok) hunjudged
      overrunFull := fun hovr => absurd (h.overrunFull hovr) hnotFull
      txEncoded := h.txEncoded
      txEmpty := h.txEmpty
      noMeasurement := h.noMeasurement
      emptyBuffer := fun hempty => absurd (hcount.symm.trans (congrArg BitVec.toNat hempty)) (Nat.succ_ne_zero _) }

theorem inv_receiveOverrun {s : State} (h : Inv s) (hfull : s.rxcnt = 32#6) : Inv (report .receiveOverrun s) where
  buffer := h.buffer
  count := h.count
  judgedFull := h.judgedFull
  judgedOutcome := h.judgedOutcome
  okFields := h.okFields
  overrunFull _ := hfull
  txEncoded := h.txEncoded
  txEmpty := h.txEmpty
  noMeasurement := h.noMeasurement
  emptyBuffer hempty := by simp [hfull] at hempty

theorem inv_pushByte {s : State} (h : Inv s) (b : Byte) : Inv (pushByte b s) := by
  obtain ⟨hroom, hstore⟩ | ⟨hnoRoom, hoverrun⟩ := pushByte_cases b s
  · rw [hstore]
    exact inv_storeByte h hroom b
  · have hle := h.count
    have hfull : s.rxcnt = 32#6 := BitVec.eq_of_toNat_eq (show s.rxcnt.toNat = 32 by omega)
    rw [hoverrun]
    exact inv_receiveOverrun h hfull

/-! ### `VALIDATE` -/

/-- R132, the first check. -/
theorem validateBuffer_of_not_full {s : State} (h : s.rxcnt ≠ 32#6) : validateBuffer s = report .incomplete s :=
  if_pos h

theorem inv_incomplete {s : State} (h : Inv s) : Inv (report .incomplete s) where
  buffer := h.buffer
  count := h.count
  judgedFull hjudged := absurd hjudged (not_judged (.inr rfl))
  judgedOutcome hjudged := absurd hjudged (not_judged (.inr rfl))
  okFields hok := absurd (.inl hok) (not_judged (.inr rfl))
  overrunFull := h.overrunFull
  txEncoded := h.txEncoded
  txEmpty := h.txEmpty
  noMeasurement hfvalid := ⟨(h.noMeasurement hfvalid).1, by simp⟩
  emptyBuffer hempty := ⟨.inr rfl, (h.emptyBuffer hempty).2⟩

/-- The field bank that an accepted buffer gives (R39 item 4). -/
theorem get_decodePayload_slice_rxBytes (s : State) (k : Fin 12) :
    (decodePayload (slice (rxBytes s 32) 4 28)).get k = be16 (rxByte s (4 + 2 * k.val)) (rxByte s (5 + 2 * k.val)) := by
  rw [decodePayload_slice, ← ofFn_memRead2, Measurement.get_ofFn, memRead2_field]

/-- R135: an error of `validate_and_strip` is its code in `RESULT`. -/
theorem takeStripped_err (e : ProtocolError) (s : State) :
    takeStripped (.err e) s = { s with result := Result.ofStripped (.err e) } := by
  cases e <;> rfl

/-- With a full buffer the outcome of `validate_and_strip` over it is what the invariant asks for. -/
theorem inv_takeStripped {s : State} (h : Inv s) (hfull : s.rxcnt = 32#6) :
    Inv (takeStripped (validateAndStrip (rxBytes s 32)) s) := by
  cases hv : validateAndStrip (rxBytes s 32) with
  | ok P =>
    obtain ⟨-, -, rfl⟩ := validateAndStrip_eq_ok_iff.mp hv
    exact
      { buffer := h.buffer
        count := h.count
        judgedFull := fun _ => hfull
        judgedOutcome := fun _ => congrArg Result.ofStripped hv.symm
        okFields := fun _ => ⟨rfl, get_decodePayload_slice_rxBytes s⟩
        overrunFull := h.overrunFull
        txEncoded := h.txEncoded
        txEmpty := h.txEmpty
        noMeasurement := fun hclear => absurd (show true = false from hclear) (by decide)
        emptyBuffer := fun hempty => absurd (hfull.symm.trans hempty) (by decide) }
  | err e =>
    have hfailed : Result.ofStripped (.err e) ≠ .ok := by cases e <;> decide
    rw [takeStripped_err]
    exact
      { buffer := h.buffer
        count := h.count
        judgedFull := fun _ => hfull
        judgedOutcome := fun _ => congrArg Result.ofStripped hv.symm
        okFields := fun hok => absurd hok hfailed
        overrunFull := h.overrunFull
        txEncoded := h.txEncoded
        txEmpty := h.txEmpty
        noMeasurement := fun hclear => ⟨(h.noMeasurement hclear).1, hfailed⟩
        emptyBuffer := fun hempty => absurd (hfull.symm.trans hempty) (by decide) }

theorem inv_validateBuffer {s : State} (h : Inv s) : Inv (validateBuffer s) := by
  by_cases hfull : s.rxcnt = 32#6
  · rw [validateBuffer_of_full hfull]
    exact inv_takeStripped h hfull
  · rw [validateBuffer_of_not_full hfull]
    exact inv_incomplete h

/-! ### Every access, every step -/

theorem WriteEffect.inv {s t : State} (h : WriteEffect s t) (hinv : Inv s) : Inv t := by
  cases h with
  | clear => exact inv_clearRx hinv
  | judge => exact inv_validateBuffer hinv
  | reset => exact inv_resetBlock s
  | push b => exact inv_pushByte hinv b
  | load op a hop => exact inv_loadTx hinv hop a
  | illegalCommand => exact inv_illegalCommand hinv
  | illegalAccess => exact inv_illegalAccess hinv

theorem inv_access {s : State} (h : Inv s) (wr : Bool) (idx : Idx) (data : U16) : Inv (access wr idx data s) := by
  cases wr with
  | false =>
    change Inv (State.returning _ (regRead idx s).1)
    refine inv_returning ?_ _
    obtain hsame | hreport := regRead_state idx s
    · rw [hsame]
      exact h
    · rw [hreport]
      exact inv_illegalAccess h
  | true => exact inv_returning ((regWrite_effect idx data s).inv h) none

/-- Settles O19: a step is nothing, a reset, or one register access (O9). -/
theorem stepKeepsInvariant : Obligations.StepKeepsInvariant := by
  intro s t hinv hstep
  cases hp : s.pending with
  | nil =>
    obtain rfl := Host.Outcome.next.inj ((step_idle hp).symm.trans hstep)
    exact hinv
  | cons e rest =>
    by_cases hreset : e = .hardReset
    · subst hreset
      obtain rfl := Host.Outcome.next.inj ((step_hardReset hp).symm.trans hstep)
      exact inv_resetBlock _
    · obtain ⟨wr, idx, data, es, rfl⟩ := eachStepIsOneAccess s t e rest hp hreset hstep
      exact inv_withPending (inv_access hinv wr idx data) _

end Sys2Proof.Machine
end

