-- ==== Sys2Proof/Proofs/StaleBytes.lean ====
section
/-! PROOF. Stale buffer bytes (10_state.md R34, 93_implementation_defined.md U6): every view and every register access
is the same in two states that agree on the bytes below `RXCNT`, and leaves two such states again. -/

namespace Sys2Proof.Machine

open Sys2Proof.Safety

section Agree

variable {s t : State}

/-! ### The views -/

theorem agree_rxBytes (h : AgreeUpToStale s t) {n : Nat} (hn : n ≤ s.rxcnt.toNat) : rxBytes t n = rxBytes s n :=
  have ⟨hbytes, _⟩ := h
  rxBytes_congr n fun i hi => hbytes i (hi.trans_le hn)

theorem agree_sofView (h : AgreeUpToStale s t) : sofView t = sofView s := by
  obtain ⟨hbytes, hcount, -⟩ := h
  rw [sofView, sofView, hcount]
  by_cases htwo : 2 ≤ s.rxcnt.toNat
  · rw [hbytes 0 (by omega), hbytes 1 (by omega)]
  · rw [decide_eq_false htwo, Bool.false_and, Bool.false_and]

theorem agree_statusWord (h : AgreeUpToStale s t) : statusWord t = statusWord s := by
  have hsof := agree_sofView h
  obtain ⟨-, hcount, hresult, hfvalid, -, hovr, ⟨-, -, htxvalid⟩, ⟨hillcmd, hbadacc⟩, -, -⟩ := h
  rw [statusWord, statusWord, hsof, rxFull, rxFull, hcount, hresult, hfvalid, hovr, htxvalid, hillcmd, hbadacc]

theorem agree_rxSum (h : AgreeUpToStale s t) : rxSum t = rxSum s := by
  have ⟨_, hcount, _⟩ := h
  rw [rxSum, rxSum, hcount, agree_rxBytes h (min_le_left _ _)]

theorem agree_txByte (h : AgreeUpToStale s t) (i : Nat) : txByte t i = txByte s i := by
  obtain ⟨-, -, -, -, -, -, ⟨htxop, htxarg, -⟩, -⟩ := h
  rw [txByte, txByte, txFrame, txFrame, htxop, htxarg]

/-! ### The model's own two fields and the updates by name -/

theorem agree_returning (h : AgreeUpToStale s t) (v : Option U16) :
    AgreeUpToStale (State.returning v s) (State.returning v t) := by
  obtain ⟨hbytes, hcount, hresult, hfvalid, hfields, hovr, htx, hsticky, hpending, -⟩ := h
  exact ⟨hbytes, hcount, hresult, hfvalid, hfields, hovr, htx, hsticky, hpending, rfl⟩

theorem agree_withPending (h : AgreeUpToStale s t) (q : List HostEvent) :
    AgreeUpToStale (State.withPending q s) (State.withPending q t) := by
  obtain ⟨hbytes, hcount, hresult, hfvalid, hfields, hovr, htx, hsticky, -, hreturned⟩ := h
  exact ⟨hbytes, hcount, hresult, hfvalid, hfields, hovr, htx, hsticky, rfl, hreturned⟩

theorem agree_following (h : AgreeUpToStale s t) (es : List HostEvent) :
    AgreeUpToStale (State.following es s) (State.following es t) := by
  obtain ⟨hbytes, hcount, hresult, hfvalid, hfields, hovr, htx, hsticky, hpending, hreturned⟩ := h
  exact ⟨hbytes, hcount, hresult, hfvalid, hfields, hovr, htx, hsticky, congrArg (es ++ ·) hpending, hreturned⟩

theorem agree_report (h : AgreeUpToStale s t) (c : ErrorCause) : AgreeUpToStale (report c s) (report c t) := by
  obtain ⟨hbytes, hcount, hresult, hfvalid, hfields, hovr, htx, ⟨hillcmd, hbadacc⟩, hpending, hreturned⟩ := h
  cases c with
  | startByteMismatch | checksumMismatch | incomplete =>
    exact ⟨hbytes, hcount, rfl, hfvalid, hfields, hovr, htx, ⟨hillcmd, hbadacc⟩, hpending, hreturned⟩
  | receiveOverrun =>
    exact ⟨hbytes, hcount, hresult, hfvalid, hfields, rfl, htx, ⟨hillcmd, hbadacc⟩, hpending, hreturned⟩
  | illegalCommand =>
    exact ⟨hbytes, hcount, hresult, hfvalid, hfields, hovr, htx, ⟨rfl, hbadacc⟩, hpending, hreturned⟩
  | illegalAccess =>
    exact ⟨hbytes, hcount, hresult, hfvalid, hfields, hovr, htx, ⟨hillcmd, rfl⟩, hpending, hreturned⟩

/-- Nothing is below an empty count. -/
theorem agree_clearRx (h : AgreeUpToStale s t) : AgreeUpToStale (clearRx s) (clearRx t) := by
  obtain ⟨-, -, -, hfvalid, hfields, -, htx, hsticky, hpending, hreturned⟩ := h
  exact ⟨fun off hoff => absurd hoff (Nat.not_lt_zero off), rfl, rfl, hfvalid, hfields, rfl, htx, hsticky, hpending,
    hreturned⟩

theorem agree_resetBlock (h : AgreeUpToStale s t) : AgreeUpToStale (resetBlock s) (resetBlock t) := by
  obtain ⟨-, -, -, -, -, -, -, -, hpending, -⟩ := h
  exact agreeUpToStale_of_eq (by rw [resetBlock_eq, resetBlock_eq, hpending])

theorem agree_loadTx (h : AgreeUpToStale s t) (op a : Byte) :
    AgreeUpToStale (State.loadTx op a s) (State.loadTx op a t) := by
  obtain ⟨hbytes, hcount, hresult, hfvalid, hfields, hovr, -, hsticky, hpending, hreturned⟩ := h
  exact ⟨hbytes, hcount, hresult, hfvalid, hfields, hovr, ⟨rfl, rfl, rfl⟩, hsticky, hpending, hreturned⟩

theorem agree_latch (h : AgreeUpToStale s t) (m : Measurement) :
    AgreeUpToStale (State.latch m s) (State.latch m t) := by
  obtain ⟨hbytes, hcount, -, -, -, hovr, htx, hsticky, hpending, hreturned⟩ := h
  exact ⟨hbytes, hcount, rfl, rfl, rfl, hovr, htx, hsticky, hpending, hreturned⟩

/-- The stored byte is the same, and the byte that the higher count takes in is the stored one. -/
theorem agree_storeByte (h : AgreeUpToStale s t) (hroom : s.rxcnt.toNat < 32) (b : Byte) :
    AgreeUpToStale (State.storeByte b s) (State.storeByte b t) := by
  obtain ⟨hbytes, hcount, hresult, hfvalid, hfields, hovr, htx, hsticky, hpending, hreturned⟩ := h
  refine ⟨fun off hoff => ?_, by rw [storeByte_rxcnt, storeByte_rxcnt, hcount], hresult, hfvalid, hfields, hovr, htx,
    hsticky, hpending, hreturned⟩
  rw [rxcnt_storeByte_toNat b s hroom] at hoff
  rw [rxByte_storeByte, rxByte_storeByte, hcount]
  by_cases hself : off = s.rxcnt.toNat
  · rw [if_pos hself, if_pos hself]
  · rw [if_neg hself, if_neg hself, hbytes off (by omega)]

/-! ### The operations -/

theorem agree_pushByte (h : AgreeUpToStale s t) (b : Byte) : AgreeUpToStale (pushByte b s) (pushByte b t) := by
  have ⟨_, hcount, _⟩ := h
  by_cases hroom : s.rxcnt.toNat < 32
  · rw [pushByte_of_lt b hroom, pushByte_of_lt b (hcount ▸ hroom)]
    exact agree_storeByte h hroom b
  · have hfull : 32 ≤ s.rxcnt.toNat := Nat.not_lt.mp hroom
    rw [pushByte_of_le b hfull, pushByte_of_le b (hcount ▸ hfull)]
    exact agree_report h _

theorem agree_takeStripped (h : AgreeUpToStale s t) (v : Stripped) :
    AgreeUpToStale (takeStripped v s) (takeStripped v t) := by
  obtain P | (_ | _) := v
  · exact agree_latch h _
  · exact agree_report h _
  · exact agree_report h _

/-- `VALIDATE` reads the buffer only when it is full, and then no byte of it is stale. -/
theorem agree_validateBuffer (h : AgreeUpToStale s t) : AgreeUpToStale (validateBuffer s) (validateBuffer t) := by
  have ⟨_, hcount, _⟩ := h
  by_cases hfull : s.rxcnt = 32#6
  · have hbytes : rxBytes t 32 = rxBytes s 32 := agree_rxBytes h (by rw [hfull]; decide)
    rw [validateBuffer_of_full hfull, validateBuffer_of_full (hcount.trans hfull), hbytes]
    exact agree_takeStripped h _
  · rw [validateBuffer_of_not_full hfull, validateBuffer_of_not_full (hcount ▸ hfull)]
    exact agree_report h _

theorem agree_regRead (h : AgreeUpToStale s t) (idx : Idx) :
    AgreeUpToStale (regRead idx s).1 (regRead idx t).1 ∧ (regRead idx t).2 = (regRead idx s).2 := by
  have ⟨_, hcount, _, _, hfields, _⟩ := h
  unfold regRead
  split_ifs
  · exact ⟨h, agree_statusWord h⟩
  · exact ⟨h, congrArg (BitVec.setWidth 16) hcount⟩
  · exact ⟨h, agree_rxSum h⟩
  · exact ⟨h, congrArg (Measurement.get · _) hfields⟩
  · exact ⟨h, agree_txByte h _⟩
  · exact ⟨agree_report h _, rfl⟩

theorem agree_regWrite (h : AgreeUpToStale s t) (idx : Idx) (v : U16) :
    AgreeUpToStale (regWrite idx v s) (regWrite idx v t) := by
  unfold regWrite
  split_ifs
  · exact agree_clearRx h
  · exact agree_validateBuffer h
  · exact agree_resetBlock h
  · exact agree_report h _
  · exact agree_pushByte h _
  · exact agree_loadTx h _ _
  · exact agree_report h _
  · exact agree_report h _

theorem agree_access (h : AgreeUpToStale s t) (wr : Bool) (idx : Idx) (data : U16) :
    AgreeUpToStale (access wr idx data s) (access wr idx data t) := by
  cases wr with
  | false =>
    obtain ⟨hstate, hvalue⟩ := agree_regRead h idx
    rw [access, access, if_neg Bool.false_ne_true, if_neg Bool.false_ne_true, hvalue]
    exact agree_returning hstate _
  | true => exact agree_returning (agree_regWrite h idx data) none

theorem agree_readOutcome (h : AgreeUpToStale s t) : AgreeUpToStale (readOutcome s) (readOutcome t) := by
  have ⟨_, _, hresult, _⟩ := h
  rw [readOutcome_access, readOutcome_access, hresult]
  exact agree_following (agree_access h false idxStatus 0#16) _

end Agree

/-- Settles O24: both states have the same event next, and it is nothing, a reset, the read of the outcome, or bytes
that are the same access in both. -/
theorem staleBytesAreUnobservable : Obligations.StaleBytesAreUnobservable := by
  intro s s' t h hstep
  have ⟨_, _, _, _, _, _, _, _, hqueue, _⟩ := h
  cases hp : s.pending with
  | nil =>
    obtain rfl := Host.Outcome.next.inj ((step_idle hp).symm.trans hstep)
    exact ⟨s', step_idle (hqueue.trans hp), h⟩
  | cons e rest =>
    have hrest := agree_withPending h rest
    cases e with
    | hardReset =>
      obtain rfl := Host.Outcome.next.inj ((step_hardReset hp).symm.trans hstep)
      exact ⟨_, step_hardReset (hqueue.trans hp), agree_resetBlock hrest⟩
    | readOutcome =>
      obtain rfl := Host.Outcome.next.inj ((step_readOutcome hp).symm.trans hstep)
      exact ⟨_, step_readOutcome (hqueue.trans hp), agree_readOutcome hrest⟩
    | issue B =>
      obtain ⟨e, he⟩ | ⟨wr, idx, data, es, haccess⟩ := performDecoded_access B
      · cases (step_issue_refused hp he).symm.trans hstep
      · rw [step_issue_performDecoded hp, haccess] at hstep
        obtain rfl := Host.Outcome.next.inj hstep
        refine ⟨_, ?_, agree_following (agree_access hrest wr idx data) es⟩
        rw [step_issue_performDecoded (hqueue.trans hp), haccess]

end Sys2Proof.Machine
end

