-- ==== Sys2Proof/Proofs/MatchMask.lean ====
section
/-! PROOF. The match and mask of each access-word row (30_encoding.md R62): masking an access word keeps its first byte
and, of `DATA`, the half that the row fixes, which is what the decoder looks at. -/

namespace Sys2Proof.Machine

open Sys2Proof.Safety

/-! ### A word by its fields (R60) -/

/-- The fields of an access word are all of it. -/
theorem accWord_fields {w : AccWord} (h : accBit22 w = false) : accWord (accW w) (accIdx w) (accData w) = w := by
  refine BitVec.eq_of_getLsbD_eq fun i hi => ?_
  rw [getLsbD_accWord, accIdx, accData, BitVec.getLsbD_extractLsb',
    BitVec.getLsbD_extractLsb']
  by_cases hdata : i < 16
  · simp [hdata]
  by_cases hidx : i < 22
  · simp [hdata, hidx, show i - 16 < 6 by omega, show 16 + (i - 16) = i by omega]
  by_cases hzero : i = 22
  · subst hzero
    simpa [accBit22] using h
  · obtain rfl : i = 23 := by omega
    simp [accW]

/-- The first byte of an access word says: this access, this register. -/
structure HeadIs (w : AccWord) (wr : Bool) (idx : Idx) : Prop where
  access : accW w = wr
  bit22 : accBit22 w = false
  index : accIdx w = idx

theorem headIs_accWord (wr : Bool) (idx : Idx) (data : U16) : HeadIs (accWord wr idx data) wr idx :=
  ⟨accW_accWord .., accBit22_accWord .., accIdx_accWord ..⟩

theorem eq_accWord_iff {w : AccWord} {wr : Bool} {idx : Idx} {data : U16} :
    w = accWord wr idx data ↔ HeadIs w wr idx ∧ accData w = data := by
  constructor
  · rintro rfl
    exact ⟨headIs_accWord .., accData_accWord ..⟩
  · rintro ⟨⟨rfl, hzero, rfl⟩, rfl⟩
    exact (accWord_fields hzero).symm

/-! ### Masking (R62) -/

/-- The mask that keeps the first byte of an access word and the bits `dm` of its `DATA`. -/
def headMask (dm : U16) : AccWord := 0xFF#8 ++ dm

/-- A mask that keeps the first byte leaves the access and its register, and masks `DATA`. -/
theorem and_headMask_fields (w : AccWord) (dm : U16) :
    accW (w &&& headMask dm) = accW w ∧ accBit22 (w &&& headMask dm) = accBit22 w ∧
      accIdx (w &&& headMask dm) = accIdx w ∧ accData (w &&& headMask dm) = accData w &&& dm := by
  have hbit (i : Nat) (hi : i < 8) : (headMask dm).getLsbD (16 + i) = true := by
    change BitVec.getLsbD (w := 8 + 16) (0xFF#8 ++ dm) (16 + i) = true
    rw [BitVec.getLsbD_append, if_neg (by omega), Nat.add_sub_cancel_left]
    interval_cases i <;> rfl
  have hdata : accData (headMask dm) = dm := BitVec.extractLsb'_append_eq_right
  refine ⟨?_, ?_, ?_, ?_⟩
  · rw [accW, BitVec.getLsbD_and, hbit 7 (by decide), Bool.and_true, accW]
  · rw [accBit22, BitVec.getLsbD_and, hbit 6 (by decide), Bool.and_true, accBit22]
  · ext i hi
    rw [accIdx, accIdx, BitVec.getElem_extractLsb', BitVec.getElem_extractLsb', BitVec.getLsbD_and,
      hbit i (by omega), Bool.and_true]
  · rw [accData, BitVec.extractLsb'_and]
    exact congrArg (accData w &&& ·) hdata

theorem and_headMask_eq_iff {w : AccWord} {wr : Bool} {idx : Idx} {data dm : U16} :
    w &&& headMask dm = accWord wr idx data ↔ HeadIs w wr idx ∧ accData w &&& dm = data := by
  obtain ⟨haccess, hzero, hidx, hdata⟩ := and_headMask_fields w dm
  rw [eq_accWord_iff, hdata]
  refine and_congr_left fun _ => ⟨fun h => ⟨?_, ?_, ?_⟩, fun h => ⟨?_, ?_, ?_⟩⟩
  · rw [← haccess, h.access]
  · rw [← hzero, h.bit22]
  · rw [← hidx, h.index]
  · rw [haccess, h.access]
  · rw [hzero, h.bit22]
  · rw [hidx, h.index]

theorem hi8_and (v m : U16) : hi8 (v &&& m) = hi8 v &&& hi8 m := BitVec.extractLsb'_and

theorem lo8_and (v m : U16) : lo8 (v &&& m) = lo8 v &&& lo8 m := BitVec.extractLsb'_and

theorem eq_be16_iff {v : U16} {h l : Byte} : v = be16 h l ↔ hi8 v = h ∧ lo8 v = l := by
  constructor
  · rintro rfl
    exact ⟨hi8_be16 h l, lo8_be16 h l⟩
  · rintro ⟨rfl, rfl⟩
    exact (be16_hi8_lo8 v).symm

/-- The low half of `DATA` alone. -/
theorem and_low_eq_iff {v : U16} {l : Byte} : v &&& 0x00FF#16 = be16 0x00#8 l ↔ lo8 v = l := by
  have hhigh : hi8 v &&& hi8 0x00FF#16 = 0x00#8 := BitVec.and_zero
  have hlow : lo8 v &&& lo8 0x00FF#16 = lo8 v := BitVec.and_allOnes
  rw [eq_be16_iff, hi8_and, lo8_and, hhigh, hlow]
  exact and_iff_right rfl

/-- The high half of `DATA` alone. -/
theorem and_high_eq_iff {v : U16} {h : Byte} : v &&& 0xFF00#16 = be16 h 0x00#8 ↔ hi8 v = h := by
  have hhigh : hi8 v &&& hi8 0xFF00#16 = hi8 v := BitVec.and_allOnes
  have hlow : lo8 v &&& lo8 0xFF00#16 = 0x00#8 := BitVec.and_zero
  rw [eq_be16_iff, hi8_and, lo8_and, hhigh, hlow]
  exact and_iff_left rfl

/-- A row that fixes the register alone. -/
theorem and_mask_register_iff {w : AccWord} {wr : Bool} {idx : Idx} :
    w &&& 0xFF0000#24 = accWord wr idx 0x0000#16 ↔ HeadIs w wr idx :=
  and_headMask_eq_iff.trans (and_iff_left BitVec.and_zero)

/-- A row that fixes the low half of `DATA`: the commands (R63). -/
theorem and_mask_command_iff {w : AccWord} {code : Byte} :
    w &&& 0xFF00FF#24 = accWord true idxCmd (be16 0x00#8 code) ↔ HeadIs w true idxCmd ∧ lo8 (accData w) = code :=
  and_headMask_eq_iff.trans (and_congr_right fun _ => and_low_eq_iff)

/-- A row that fixes the high half of `DATA`: the opcodes (R66). -/
theorem and_mask_opcode_iff {w : AccWord} {op : Byte} :
    w &&& 0xFFFF00#24 = accWord true idxTxreq (be16 op 0x00#8) ↔ HeadIs w true idxTxreq ∧ hi8 (accData w) = op :=
  and_headMask_eq_iff.trans (and_congr_right fun _ => and_high_eq_iff)

/-! ### What the decoder answers, as a relation (R61) -/

/-- A write of `v` to a register spells an instruction. -/
inductive WriteSpells (v : U16) : Idx → Instr → Prop where
  | rxclr (h : lo8 v = codeRxclr) : WriteSpells v idxCmd .rxclr
  | validate (h : lo8 v = codeValidate) : WriteSpells v idxCmd .validate
  | softrst (h : lo8 v = codeSoftrst) : WriteSpells v idxCmd .softrst
  | push : WriteSpells v idxRxdata (.push (lo8 v))
  | encMode (h : hi8 v = opChangeMode) : WriteSpells v idxTxreq (.encMode (lo8 v))
  | encRead (h : hi8 v = opRequestRead) : WriteSpells v idxTxreq (.encRead (lo8 v))
  | encSleep (h : hi8 v = opSetSleep) : WriteSpells v idxTxreq (.encSleep (lo8 v))

theorem decodeWrite_eq_op_iff {idx : Idx} {v : U16} {j : Instr} : decodeWrite idx v = .op j ↔ WriteSpells v idx j := by
  constructor
  · intro h
    unfold decodeWrite at h
    split_ifs at h with hcmd hrxclr hvalidate hsoftrst hrxdata htxreq hmode hread hsleep
    all_goals cases h
    · exact hcmd ▸ .rxclr hrxclr
    · exact hcmd ▸ .validate hvalidate
    · exact hcmd ▸ .softrst hsoftrst
    · exact hrxdata ▸ .push
    · exact htxreq ▸ .encMode hmode
    · exact htxreq ▸ .encRead hread
    · exact htxreq ▸ .encSleep hsleep
  · intro h
    cases h with
    | push => rfl
    | rxclr h | validate h | softrst h | encMode h | encRead h | encSleep h =>
      rw [decodeWrite, h]
      rfl

/-- A word whose first byte is a write decodes as that write. -/
theorem HeadIs.decodeAcc_write {w : AccWord} {idx : Idx} (h : HeadIs w true idx) :
    decodeAcc w = decodeWrite idx (accData w) := by
  rw [decodeAcc, h.bit22, if_neg Bool.false_ne_true, h.access, if_pos rfl, h.index]

/-- A word whose first byte is a read decodes as that read. -/
theorem HeadIs.decodeAcc_read {w : AccWord} {idx : Idx} (h : HeadIs w false idx) : decodeAcc w = decodeRead idx := by
  rw [decodeAcc, h.bit22, if_neg Bool.false_ne_true, h.access, if_neg Bool.false_ne_true, h.index]

/-- A word that decodes to a row is a read or a write of some register. -/
theorem decodeAcc_eq_op {w : AccWord} {j : Instr} (h : decodeAcc w = .op j) :
    (∃ idx, HeadIs w false idx ∧ decodeRead idx = .op j) ∨
      ∃ idx, HeadIs w true idx ∧ WriteSpells (accData w) idx j := by
  have hzero : accBit22 w = false := by
    cases hset : accBit22 w with
    | false => rfl
    | true => cases (decodeAcc_bit22 hset).symm.trans h
  cases hw : accW w with
  | false =>
    have hhead : HeadIs w false (accIdx w) := ⟨hw, hzero, rfl⟩
    exact .inl ⟨accIdx w, hhead, hhead.decodeAcc_read.symm.trans h⟩
  | true =>
    have hhead : HeadIs w true (accIdx w) := ⟨hw, hzero, rfl⟩
    exact .inr ⟨accIdx w, hhead, decodeWrite_eq_op_iff.mp (hhead.decodeAcc_write.symm.trans h)⟩

/-! ### The rows of reads -/

/-- The row of a read fixes the register it reads. -/
theorem accRow_of_decodeRead {idx : Idx} {j : Instr} (h : decodeRead idx = .op j) :
    j ∈ readOps ∧ accRow j = some (accWord false idx 0x0000#16, 0xFF0000#24) := by
  obtain rfl | rfl | rfl | ⟨k, rfl⟩ | ⟨k, rfl⟩ | hillegal := readIndex_cases idx
  · cases h; exact ⟨by simp [readOps], rfl⟩
  · cases h; exact ⟨by simp [readOps], rfl⟩
  · cases h; exact ⟨by simp [readOps], rfl⟩
  · fin_cases k <;> cases h <;> exact ⟨by simp [readOps], rfl⟩
  · fin_cases k <;> cases h <;> exact ⟨by simp [readOps], rfl⟩
  · cases (decodeRead_illegal idx hillegal).symm.trans h

/-- Every read is the read of some register. -/
theorem exists_decodeRead {i : Instr} (h : i ∈ readOps) : ∃ idx, decodeRead idx = .op i := by
  have hencode : ∃ idx, encode i = accBytes (accWord false idx 0x0000#16) := by fin_cases h <;> exact ⟨_, rfl⟩
  obtain ⟨idx, he⟩ := hencode
  exact ⟨idx, by rw [← decode_encode, he, decode_accWord_read]⟩

/-! ### Both directions of R62 -/

/-- A word under the mask of a row with the row's match decodes to that row. -/
theorem exists_decodeAcc_of_and_mask {w : AccWord} {i : Instr} {mt mk : AccWord} (hrow : accRow i = some (mt, mk))
    (hw : w &&& mk = mt) : ∃ j, decodeAcc w = .op j ∧ accRow j = some (mt, mk) := by
  have command (code : Byte) {j : Instr} (hw : w &&& 0xFF00FF#24 = accWord true idxCmd (be16 0x00#8 code))
      (hj : lo8 (accData w) = code → WriteSpells (accData w) idxCmd j) : decodeAcc w = .op j := by
    obtain ⟨hhead, hcode⟩ := and_mask_command_iff.mp hw
    rw [hhead.decodeAcc_write, decodeWrite_eq_op_iff.mpr (hj hcode)]
  have opcode (op : Byte) {j : Instr} (hw : w &&& 0xFFFF00#24 = accWord true idxTxreq (be16 op 0x00#8))
      (hj : hi8 (accData w) = op → WriteSpells (accData w) idxTxreq j) : decodeAcc w = .op j := by
    obtain ⟨hhead, hop⟩ := and_mask_opcode_iff.mp hw
    rw [hhead.decodeAcc_write, decodeWrite_eq_op_iff.mpr (hj hop)]
  have read (hi : i ∈ readOps) : ∃ j, decodeAcc w = .op j ∧ accRow j = some (mt, mk) := by
    obtain ⟨idx, hd⟩ := exists_decodeRead hi
    obtain ⟨-, hmatch⟩ := accRow_of_decodeRead hd
    cases hrow.symm.trans hmatch
    exact ⟨i, (and_mask_register_iff.mp hw).decodeAcc_read.trans hd, hrow⟩
  cases i with
  | rxclr => cases hrow; exact ⟨.rxclr, command codeRxclr hw .rxclr, rfl⟩
  | validate => cases hrow; exact ⟨.validate, command codeValidate hw .validate, rfl⟩
  | softrst => cases hrow; exact ⟨.softrst, command codeSoftrst hw .softrst, rfl⟩
  | push =>
    cases hrow
    have hhead : HeadIs w true idxRxdata := and_mask_register_iff.mp hw
    exact ⟨.push (lo8 (accData w)), by rw [hhead.decodeAcc_write, decodeWrite_eq_op_iff.mpr .push], rfl⟩
  | encMode => cases hrow; exact ⟨_, opcode opChangeMode hw .encMode, rfl⟩
  | encRead => cases hrow; exact ⟨_, opcode opRequestRead hw .encRead, rfl⟩
  | encSleep => cases hrow; exact ⟨_, opcode opSetSleep hw .encSleep, rfl⟩
  | cframeChangeMode | cframeRequestReadPassive | cframeSetSleep | mframe => cases hrow
  | _ => exact read (by simp [readOps])

/-- A word that decodes to a row has the row's match under the row's mask. -/
theorem and_mask_of_decodeAcc {w : AccWord} {j : Instr} {mt mk : AccWord} (hd : decodeAcc w = .op j)
    (hrow : accRow j = some (mt, mk)) : w &&& mk = mt := by
  obtain ⟨idx, hhead, hread⟩ | ⟨idx, hhead, hspells⟩ := decodeAcc_eq_op hd
  · obtain ⟨-, hmatch⟩ := accRow_of_decodeRead hread
    cases hrow.symm.trans hmatch
    exact and_mask_register_iff.mpr hhead
  · cases hspells with
    | rxclr h | validate h | softrst h => cases hrow; exact and_mask_command_iff.mpr ⟨hhead, h⟩
    | push => cases hrow; exact and_mask_register_iff.mpr hhead
    | encMode h | encRead h | encSleep h => cases hrow; exact and_mask_opcode_iff.mpr ⟨hhead, h⟩

/-- The operand of a row that has one is the low byte of the word. -/
theorem operand_of_decodeAcc {w : AccWord} {j : Instr} {b : Byte} (hd : decodeAcc w = .op j)
    (hj : j = .push b ∨ j = .encMode b ∨ j = .encRead b ∨ j = .encSleep b) : b.toNat = w.toNat % 256 := by
  have hlow : (lo8 (accData w)).toNat = w.toNat % 256 := by
    rw [lo8_toNat, accData, BitVec.extractLsb'_toNat, Nat.shiftRight_zero, Nat.mod_mod_of_dvd _ (by decide)]
  have hoperand : b = lo8 (accData w) := by
    obtain ⟨idx, -, hread⟩ | ⟨idx, -, hspells⟩ := decodeAcc_eq_op hd
    · obtain ⟨hmem, -⟩ := accRow_of_decodeRead hread
      obtain rfl | rfl | rfl | rfl := hj <;> simp [readOps] at hmem
    · cases hspells with
      | rxclr | validate | softrst => simp at hj
      | push | encMode | encRead | encSleep => simpa [eq_comm] using hj
  rw [hoperand, hlow]

/-- Settles O2: masking tests the fields that the decoder tests, and the operand is the half of `DATA` that no mask
keeps. -/
theorem accessWordSpellsRowOfMatchAndMask : Obligations.AccessWordSpellsRowOfMatchAndMask := by
  intro w i mt mk hrow
  refine ⟨⟨exists_decodeAcc_of_and_mask hrow, fun ⟨j, hd, hj⟩ => and_mask_of_decodeAcc hd hj⟩, fun b hd => ?_⟩
  obtain hd | hd | hd | hd := hd
  · exact operand_of_decodeAcc hd (.inl rfl)
  · exact operand_of_decodeAcc hd (.inr (.inl rfl))
  · exact operand_of_decodeAcc hd (.inr (.inr (.inl rfl)))
  · exact operand_of_decodeAcc hd (.inr (.inr (.inr rfl)))

end Sys2Proof.Machine
end

