-- ==== Sys2Proof/Proofs/StepRules.lean ====
section
/-! PROOF. Rules of the whole machine: what a step can do to the receive side (10_state.md R16, R32, 00_scope.md R7),
the flags that only a reset takes back (R21, R25 to R27), and what operations of the two sides leave each other
(45_command_encode.md R148). -/

namespace Sys2Proof.Machine

open Sys2Proof.Safety

/-! ### The receive side in one instruction -/

/-- What an instruction that is no reset does to the receive side, by the instruction that does it.
`exec_rxEffect` says that nothing else happens. -/
inductive RxEffect (s : State) : Instr → State → Prop where
  | keep (i : Instr) {t : State} (h : RxSame s t) : RxEffect s i t
  | clear {t : State} (h : RxSame (clearRx s) t) : RxEffect s .rxclr t
  | receive (len : U16) (m : Measurement) (trailer chk : U16) {t : State} (h : RxSame (clearRx s) t) :
      RxEffect s (.mframe len m trailer chk) t
  | judge {t : State} (h : RxSame (validateBuffer s) t) : RxEffect s .validate t
  | push (b : Byte) {t : State} (h : RxSame (pushByte b s) t) : RxEffect s (.push b) t

theorem rxSame_refl (s : State) : RxSame s s := ⟨fun _ => rfl, rfl, rfl, rfl, rfl, rfl⟩

/-- Neither the returned value nor the host's queue is part of the receive side. -/
theorem rxSame_returning (v : Option U16) (s : State) : RxSame s (State.returning v s) := rxSame_refl s

theorem rxSame_following_returning (es : List HostEvent) (v : Option U16) (s : State) :
    RxSame s (State.following es (State.returning v s)) := rxSame_refl s

theorem exec_rxEffect {i : Instr} {s t : State} (h : exec i s = .next t) (hi : i ≠ .softrst) : RxEffect s i t := by
  have hread (hmem : i ∈ readOps) : RxEffect s i t := by
    obtain ⟨v, hv⟩ := exec_read hmem s
    obtain rfl := Host.Outcome.next.inj (hv.symm.trans h)
    exact .keep i (rxSame_returning (some v) s)
  cases i with
  | rxclr => cases h; exact .clear (rxSame_returning none _)
  | validate => cases h; exact .judge (rxSame_returning none _)
  | softrst => exact absurd rfl hi
  | push b => cases h; exact .push b (rxSame_returning none _)
  | encMode a | encRead a | encSleep a => cases h; exact .keep _ (rxSame_refl s)
  | cframeChangeMode a _ | cframeRequestReadPassive a _ | cframeSetSleep a _ => cases h; exact .keep _ (rxSame_refl s)
  | mframe len m trailer chk => cases h; exact .receive len m trailer chk (rxSame_following_returning _ none _)
  | _ => exact hread (by simp [readOps])

/-! ### The receive side in one step -/

/-- An access that is no row reaches a sticky flag at most (R99, R100, R147). -/
theorem rxSame_performIllegal (x : IllegalAccess) (s : State) : RxSame s (performIllegal x s) := by
  cases x <;> exact rxSame_refl s

/-- Everything a step can do to the receive side. -/
theorem step_rxEffect {s t : State} (h : step s = .next t) :
    ResetNext s ∨ RxSame s t ∨ ∃ rest i, InstrNext s i ∧ RxEffect (State.withPending rest s) i t := by
  obtain ⟨_, rfl⟩ | ⟨rest, hp, _⟩ | ⟨rest, _, rfl⟩ | ⟨B, rest, i, hp, hd, hexec⟩ | ⟨B, rest, x, _, _, rfl⟩ :=
    step_cases h
  · exact .inr (.inl (rxSame_refl t))
  · exact .inl ⟨rest, .inl hp⟩
  · exact .inr (.inl (rxSame_following_returning _ _ _))
  · by_cases hi : i = .softrst
    · exact .inl ⟨rest, .inr ⟨B, hp, hi ▸ hd⟩⟩
    · exact .inr (.inr ⟨rest, i, ⟨B, rest, hp, hd⟩, exec_rxEffect hexec hi⟩)
  · exact .inr (.inl (rxSame_performIllegal x _))

/-- Both resets empty the count. -/
theorem rxcnt_of_resetNext {s t : State} (hreset : ResetNext s) (h : step s = .next t) : t.rxcnt = 0#6 := by
  obtain ⟨rest, hp | ⟨B, hp, hd⟩⟩ := hreset
  · obtain rfl := Host.Outcome.next.inj ((step_hardReset hp).symm.trans h)
    rfl
  · obtain rfl := Host.Outcome.next.inj (((step_issue hp hd).trans (exec_softrst _)).symm.trans h)
    rfl

/-- Settles O10: of all that a step can do to the receive side, only a stored byte changes the buffer. -/
theorem bufferChangesOnlyByPush : Obligations.BufferChangesOnlyByPush := by
  intro s t off hstep hchange
  obtain hreset | ⟨hsame, -⟩ | ⟨rest, i, hnext, heffect⟩ := step_rxEffect hstep
  · exact .inl hreset
  · exact absurd (hsame off) hchange
  cases heffect with
  | keep _ h | clear h | receive _ _ _ _ h =>
    obtain ⟨hsame, -⟩ := h
    exact absurd (hsame off) hchange
  | judge h =>
    obtain ⟨hsame, -⟩ := h
    obtain ⟨hjudged, -⟩ := validateBuffer_frame (State.withPending rest s)
    exact absurd ((hsame off).trans (hjudged off)) hchange
  | push b h =>
    obtain ⟨hsame, -⟩ := h
    have hbyte := hsame off
    obtain ⟨hroom, hstore⟩ | ⟨-, hoverrun⟩ := pushByte_cases b (State.withPending rest s)
    · rw [hstore, rxByte_storeByte, withPending_rxcnt, rxByte_withPending] at hbyte
      by_cases hoff : off = s.rxcnt.toNat
      · rw [if_pos hoff] at hbyte
        rw [hbyte]
        exact .inr ⟨hoff, hoff ▸ hroom, hnext⟩
      · rw [if_neg hoff] at hbyte
        exact absurd hbyte hchange
    · rw [hoverrun, rxByte_report] at hbyte
      exact absurd hbyte hchange

/-- Settles O51: of all that a step can do to the receive side, only an acceptance changes the field bank. -/
theorem fieldsChangeOnlyOnAcceptanceOrReset : Obligations.FieldsChangeOnlyOnAcceptanceOrReset := by
  intro s t hstep hchange
  obtain hreset | ⟨-, -, -, -, hfields, -⟩ | ⟨rest, i, hnext, heffect⟩ := step_rxEffect hstep
  · exact .inl hreset
  · exact absurd hfields hchange
  cases heffect with
  | keep _ h | clear h | receive _ _ _ _ h =>
    obtain ⟨-, -, -, -, hfields, -⟩ := h
    exact absurd hfields hchange
  | judge h =>
    obtain ⟨-, -, hresult, -, hfields, -⟩ := h
    obtain ⟨_, hend⟩ | ⟨_, _, hend⟩ | ⟨_, _, _, hend⟩ | ⟨_, _, _, hend⟩ :=
      validateBuffer_cases (State.withPending rest s)
    all_goals rw [hend] at hresult hfields
    · exact absurd hfields hchange
    · exact absurd hfields hchange
    · exact absurd hfields hchange
    · exact .inr ⟨hresult, hnext⟩
  | push b h =>
    obtain ⟨-, -, -, -, hfields, -⟩ := h
    obtain ⟨_, hend⟩ | ⟨_, hend⟩ := pushByte_cases b (State.withPending rest s)
    all_goals
      rw [hend] at hfields
      exact absurd hfields hchange

/-- Settles O52: of all that a step can do to the receive side, the two that clear set the count to 0, and a stored
byte takes it up by one. -/
theorem countMovesOnlyByItsOperations : Obligations.CountMovesOnlyByItsOperations := by
  intro s t hstep hchange
  obtain hreset | ⟨-, hcount, -⟩ | ⟨rest, i, hnext, heffect⟩ := step_rxEffect hstep
  · exact .inl ⟨rxcnt_of_resetNext hreset hstep, .inl hreset⟩
  · exact absurd hcount hchange
  cases heffect with
  | keep _ h =>
    obtain ⟨-, hcount, -⟩ := h
    exact absurd hcount hchange
  | clear h =>
    obtain ⟨-, hcount, -⟩ := h
    exact .inl ⟨hcount, .inr (.inl hnext)⟩
  | receive len m trailer chk h =>
    obtain ⟨-, hcount, -⟩ := h
    exact .inl ⟨hcount, .inr (.inr ⟨len, m, trailer, chk, hnext⟩)⟩
  | judge h =>
    obtain ⟨-, hcount, -⟩ := h
    obtain ⟨-, hjudged, -⟩ := validateBuffer_frame (State.withPending rest s)
    exact absurd (hcount.trans hjudged) hchange
  | push b h =>
    obtain ⟨-, hcount, -⟩ := h
    obtain ⟨hroom, hstore⟩ | ⟨-, hoverrun⟩ := pushByte_cases b (State.withPending rest s)
    · have hup := rxcnt_storeByte_toNat b (State.withPending rest s) hroom
      rw [hcount, hstore]
      exact .inr ⟨hroom, hup, b, hnext⟩
    · rw [hoverrun] at hcount
      exact absurd hcount hchange

/-! ### The flags that only a reset takes back -/

theorem flagsKept_performIllegal (x : IllegalAccess) (s : State) : FlagsKept s (performIllegal x s) := by
  cases x with
  | command | opcode => exact (flagsKept_report .illegalCommand s).returning none
  | read => exact (flagsKept_report .illegalAccess s).returning _
  | write => exact (flagsKept_report .illegalAccess s).returning none

theorem flagsKept_of_withPending {q : List HostEvent} {s t : State} (h : FlagsKept (State.withPending q s) t) :
    FlagsKept s t := ⟨h.fvalid, h.txvalid, h.illcmd, h.badacc⟩

/-- A step that performs no reset keeps the four flags. -/
theorem step_flagsKept {s t : State} (h : step s = .next t) : ResetNext s ∨ FlagsKept s t := by
  obtain ⟨_, rfl⟩ | ⟨rest, hp, _⟩ | ⟨rest, _, rfl⟩ | ⟨B, rest, i, hp, hd, hexec⟩ | ⟨B, rest, x, _, _, rfl⟩ :=
    step_cases h
  · exact .inr (flagsKept_refl t)
  · exact .inl ⟨rest, .inl hp⟩
  · exact .inr (flagsKept_of_withPending (((flagsKept_refl _).returning _).following _))
  · by_cases hi : i = .softrst
    · exact .inl ⟨rest, .inr ⟨B, hp, hi ▸ hd⟩⟩
    · exact .inr (flagsKept_of_withPending (exec_flagsKept hexec hi))
  · exact .inr (flagsKept_of_withPending (flagsKept_performIllegal x _))

/-- Settles O50: a step that performs no reset keeps the flags, so that none of them falls in it. -/
theorem flagsFallOnlyAtReset : Obligations.FlagsFallOnlyAtReset := by
  intro s t hstep hfalls
  obtain hreset | ⟨hfvalid, htxvalid, hillcmd, hbadacc⟩ := step_flagsKept hstep
  · exact hreset
  obtain ⟨hset, hclear⟩ | ⟨hset, hclear⟩ | ⟨hset, hclear⟩ | ⟨hset, hclear⟩ := hfalls
  · exact absurd (hfvalid hset) (Bool.eq_false_iff.mp hclear)
  · exact absurd (htxvalid hset) (Bool.eq_false_iff.mp hclear)
  · exact absurd (hillcmd hset) (Bool.eq_false_iff.mp hclear)
  · exact absurd (hbadacc hset) (Bool.eq_false_iff.mp hclear)

/-! ### What operations leave of the other side -/

theorem pushByte_frame (b : Byte) (s : State) : TxSame s (pushByte b s) ∧ StickySame s (pushByte b s) := by
  obtain ⟨_, h⟩ | ⟨_, h⟩ := pushByte_cases b s
  all_goals
    rw [h]
    exact ⟨⟨rfl, rfl, rfl⟩, rfl, rfl⟩

/-- Settles O42: `loadTx` writes the transmit state alone, and none of the three operations of the receive side writes
it. -/
theorem transmitAndReceiveShareNoState : Obligations.TransmitAndReceiveShareNoState := by
  refine ⟨fun i a s t hi h => ?encode, fun i b s t hi h => ?receive⟩
  case encode =>
    obtain rfl | rfl | rfl := hi
    all_goals
      cases h
      exact ⟨rxSame_refl s, ⟨rfl, rfl⟩, rfl⟩
  case receive =>
    obtain rfl | rfl | rfl := hi
    all_goals cases h
    · exact pushByte_frame b s
    · exact ⟨⟨rfl, rfl, rfl⟩, rfl, rfl⟩
    · obtain ⟨-, -, -, htx, hsticky, -⟩ := validateBuffer_frame s
      exact ⟨htx, hsticky⟩

/-- Settles O21: `clearRx` writes no byte, and `resetBlock` lists none. -/
theorem clearingKeepsAndResetZeroesBufferBytes : Obligations.ClearingKeepsAndResetZeroesBufferBytes := by
  refine fun s t => ⟨fun h off => ?rxclr, fun h => ?softrst⟩
  case rxclr =>
    cases h
    exact rxByte_clearRx s off
  case softrst =>
    obtain rfl := Host.Outcome.next.inj ((exec_softrst s).symm.trans h)
    exact ⟨resetBlock_eq s, rxByte_resetBlock s⟩

end Sys2Proof.Machine
end

