-- ==== Sys2Proof/Proofs/RegisterReads.lean ====
section
/-! PROOF. The register reads (20_memory.md R51, 40_access_and_buffer.md R91 to R93): what each returns, that it returns
the same again, and what a `STATUS` value decodes to (10_state.md R19, R20). -/

namespace Sys2Proof.Machine

open Sys2Proof.Safety

/-! ### Any read (R51) -/

/-- The value that a reading operation returns; `exec_eq_readValue` ties it to the operation. -/
def readValue (i : Instr) (s : State) : U16 :=
  match exec i s with
  | .next t => t.returned.getD 0x0000#16
  | .fault _ => 0x0000#16
  | .refused _ => 0x0000#16

theorem exec_eq_readValue {i : Instr} (h : i ∈ readOps) (s : State) :
    exec i s = .next (State.returning (some (readValue i s)) s) := by
  obtain ⟨v, hv⟩ := exec_read h s
  have hvalue : readValue i s = v := by
    rw [readValue, hv]
    rfl
  rw [hv, hvalue]

/-- A read looks neither at the value read before nor at the host's queue. -/
theorem readValue_withPending_returning {i : Instr} (h : i ∈ readOps) (q : List HostEvent) (v : Option U16)
    (s : State) : readValue i (State.withPending q (State.returning v s)) = readValue i s := by
  fin_cases h <;> rfl

/-- Settles O49: a read changes the returned value alone, which no read looks at. -/
theorem readsHaveNoSideEffect : Obligations.ReadsHaveNoSideEffect := by
  intro i hi s t h
  obtain rfl := Host.Outcome.next.inj ((exec_eq_readValue hi s).symm.trans h)
  have hagain : readValue i (State.returning (some (readValue i s)) s) = readValue i s :=
    readValue_withPending_returning hi s.pending (some (readValue i s)) s
  refine ⟨⟨rxSame_returning _ s, ⟨rfl, rfl, rfl⟩, ⟨rfl, rfl⟩⟩, rfl, rfl, ?_⟩
  rw [exec_eq_readValue hi, hagain]
  rfl

/-! ### The fields (R93) -/

theorem decode_rdfields_bytes (k : Fin 12) (x y : Byte) :
    decode [accHead false (idxField0 + BitVec.ofNat 6 k), x, y] = .op (rdfields.get k) := by
  rw [decode_read_bytes]
  fin_cases k <;> rfl

/-- Each of the reads of `RDFIELDS` returns its field and leaves the state. -/
theorem exec_rdfields (k : Fin 12) (s : State) :
    exec (rdfields.get k) s = .next { s with returned := some (s.fields.get k) } := by
  fin_cases k <;> rfl

/-- Settles O48: the register of field `k` decodes to the `k`th read of `RDFIELDS`, which returns field `k`. -/
theorem readFields : Obligations.ReadFields := by
  refine ⟨fun x y => ?_, fun s => ?_⟩
  · have hdecode (k : Fin 12) := decode_rdfields_bytes k x y
    exact ⟨hdecode 0, hdecode 1, hdecode 2, hdecode 3, hdecode 4, hdecode 5, hdecode 6, hdecode 7, hdecode 8,
      hdecode 9, hdecode 10, hdecode 11⟩
  · have hread (k : Fin 12) := exec_rdfields k s
    exact ⟨hread 0, hread 1, hread 2, hread 3, hread 4, hread 5, hread 6, hread 7, hread 8, hread 9, hread 10,
      hread 11⟩

/-! ### The count and the sum (R91, R92) -/

theorem decode_rdRxcnt_bytes (x y : Byte) : decode [0x03#8, x, y] = .op .rdRxcnt :=
  decode_read_bytes idxRxcnt x y

theorem decode_rdRxsum_bytes (x y : Byte) : decode [0x04#8, x, y] = .op .rdRxsum :=
  decode_read_bytes idxRxsum x y

theorem length_rxBytes (s : State) (n : Nat) : (rxBytes s n).length = n := by
  simp [rxBytes]

/-- At most thirty bytes are summed, each at most 255. -/
theorem rxSum_toNat_le (s : State) : (rxSum s).toNat ≤ 0x1DE2 := by
  have hlength : (rxBytes s (min s.rxcnt.toNat msumLen)).length ≤ 30 :=
    (length_rxBytes s _).trans_le (min_le_right _ _)
  have hsum := sum16_toNat_le (hlength.trans (by decide))
  rw [rxSum]
  omega

/-- Settles O47: the two values are the count extended and `rxSum`. -/
theorem readCountAndSum : Obligations.ReadCountAndSum := by
  refine ⟨fun x y => ⟨decode_rdRxcnt_bytes x y, decode_rdRxsum_bytes x y⟩, fun s => ⟨?count, ?sum⟩⟩
  case count => exact ⟨s.rxcnt.setWidth 16, rfl, BitVec.toNat_setWidth_of_le (by decide)⟩
  case sum => exact ⟨rxSum s, rfl, rfl, rxSum_toNat_le s⟩

/-! ### `STATUS` values (R19, R20) -/

theorem Result.ofCode_code (r : Result) : Result.ofCode r.code = some r := by
  cases r <;> rfl

/-- U9: the codes above 4 stand for nothing. -/
theorem Result.ofCode_eq_none : ∀ c : BitVec 3, 5 ≤ c.toNat → Result.ofCode c = Option.none := by
  decide

/-- R37: bits 15:10 read as zero. -/
theorem statusWord_reserved (s : State) : (statusWord s).extractLsb' 10 6 = 0#6 := by
  have hten := statusWord_toNat_lt s
  refine BitVec.eq_of_toNat_eq ?_
  rw [BitVec.extractLsb'_toNat, Nat.shiftRight_eq_div_pow, Nat.div_eq_of_lt hten]
  rfl

theorem outcomeCode_toNat (v : U16) : (outcomeCode v).toNat = v.toNat % 8 := by
  rw [outcomeCode, BitVec.extractLsb'_toNat]
  rfl

/-- Settles O46: the reserved bits are zero, the code stands for `RESULT`, and each flag is at its bit. -/
theorem statusDecodesBack : Obligations.StatusDecodesBack := by
  refine ⟨fun s => ?value, fun v hv => ?rejected⟩
  case value =>
    obtain ⟨hfvalid, hrxfull, hsof, hrxovr, htxvalid, hillcmd, hbadacc⟩ := statusWord_flags s
    simp only [decodeStatus, if_pos (statusWord_reserved s), outcomeCode_statusWord, Result.ofCode_code, hfvalid,
      hrxfull, hsof, hrxovr, htxvalid, hillcmd, hbadacc]
  case rejected =>
    have hcode : Result.ofCode (outcomeCode v) = none :=
      Result.ofCode_eq_none (outcomeCode v) (by rwa [outcomeCode_toNat])
    simp only [decodeStatus, hcode, ite_self]

end Sys2Proof.Machine
end

