-- ==== Sys2Proof/Proofs/ValidateAgain.lean ====
section
/-! PROOF. `VALIDATE` performed again (44_validate.md R137): it reads only what it never writes, and what an overrunning
`PUSH` does not write either. -/

namespace Sys2Proof.Machine

open Sys2Proof.Safety

/-- Taking the same outcome again finds it taken. -/
theorem takeStripped_again (v : Stripped) (w : Option U16) (s : State) :
    takeStripped v (State.returning w (takeStripped v s)) = State.returning w (takeStripped v s) := by
  obtain P | (_ | _) := v <;> rfl

/-- The buffer and the count decide the outcome, and both are still there. -/
theorem rxBytes_validateBuffer (s : State) (n : Nat) : rxBytes (validateBuffer s) n = rxBytes s n := by
  obtain ⟨hbuffer, -⟩ := validateBuffer_frame s
  exact rxBytes_congr n fun i _ => hbuffer i

theorem validateBuffer_rxcnt (s : State) : (validateBuffer s).rxcnt = s.rxcnt := by
  obtain ⟨-, hcount, -⟩ := validateBuffer_frame s
  exact hcount

theorem validateBuffer_again (w : Option U16) (s : State) :
    validateBuffer (State.returning w (validateBuffer s)) = State.returning w (validateBuffer s) := by
  have hcount := validateBuffer_rxcnt s
  by_cases hfull : s.rxcnt = 32#6
  · have hbytes : rxBytes (State.returning w (validateBuffer s)) 32 = rxBytes s 32 := rxBytes_validateBuffer s 32
    rw [validateBuffer_of_full (s := State.returning w (validateBuffer s)) (hcount.trans hfull), hbytes,
      validateBuffer_of_full hfull, takeStripped_again]
  · rw [validateBuffer_of_not_full hfull]
    exact validateBuffer_of_not_full hfull

/-- An overrun (R87) before `VALIDATE` shows in `RXOVR` alone. -/
theorem validateBuffer_receiveOverrun (s : State) :
    validateBuffer (report .receiveOverrun s) = report .receiveOverrun (validateBuffer s) := by
  by_cases hfull : s.rxcnt = 32#6
  · have hbytes : rxBytes (report .receiveOverrun s) 32 = rxBytes s 32 := rfl
    rw [validateBuffer_of_full (s := report .receiveOverrun s) hfull, hbytes, validateBuffer_of_full hfull]
    obtain P | (_ | _) := validateAndStrip (rxBytes s 32) <;> rfl
  · rw [validateBuffer_of_not_full hfull, validateBuffer_of_not_full (s := report .receiveOverrun s) hfull]
    rfl

/-- Settles O28: the second `VALIDATE` takes the outcome that was taken, with an overrun between or without. -/
theorem validateRepeats : Obligations.ValidateRepeats := by
  intro s t h
  obtain rfl := Host.Outcome.next.inj ((exec_validate s).symm.trans h)
  have hagain := validateBuffer_again none s
  have hcount : (State.returning none (validateBuffer s)).rxcnt = s.rxcnt := validateBuffer_rxcnt s
  have hnone : (State.returning none (validateBuffer s)).returned = none := rfl
  generalize State.returning none (validateBuffer s) = t at *
  refine ⟨by rw [exec_validate, hagain, returning_eq_self hnone], fun hfull b => ?_⟩
  have hpush : pushByte b t = report .receiveOverrun t := pushByte_of_le b (by rw [hcount, hfull]; decide)
  have hnone' : (report .receiveOverrun t).returned = none := hnone
  refine ⟨report .receiveOverrun t, report .receiveOverrun t, ?_, ?_, rfl, rfl, rfl, fun _ => rfl, rfl⟩
  · rw [exec_push, hpush, returning_eq_self hnone']
  · rw [exec_validate, validateBuffer_receiveOverrun, hagain, returning_eq_self hnone']

end Sys2Proof.Machine
end

