-- ==== Sys2Proof/Proofs/PermutedInterior.lean ====
section
/-! PROOF. What the checksum cannot see (41_checksum.md R109): the order of the bytes between the start bytes and the
checksum field. -/

namespace Sys2Proof.Machine

/-- The two bytes from offset `i`. -/
theorem slice_two {B : List Byte} {i : Nat} (h : i + 1 < B.length) :
    slice B i (i + 2) = [byteAt B i, byteAt B (i + 1)] := by
  rw [slice_eq_cons (by omega) (by omega), slice_eq_cons (by omega) (by omega)]
  simp [slice]

/-! ### Two bytes, twenty-eight, and two: what the checks read of the frame that R109 speaks of -/

section Frame

variable {b0 b1 b30 b31 : Byte} {X : List Byte}

theorem byteAt_frame_checksum (h : X.length = 28) :
    byteAt (b0 :: b1 :: (X ++ [b30, b31])) 30 = b30 ∧ byteAt (b0 :: b1 :: (X ++ [b30, b31])) 31 = b31 := by
  simp [byteAt, h]

theorem slice_frame_summed (h : X.length = 28) : slice (b0 :: b1 :: (X ++ [b30, b31])) 0 30 = b0 :: b1 :: X := by
  simp [slice, h]

theorem slice_frame_payload (h : X.length = 28) : slice (b0 :: b1 :: (X ++ [b30, b31])) 4 28 = slice X 2 26 := by
  simp [slice, h, List.drop_append_of_le_length, List.take_append_of_le_length]

end Frame

/-- Settles O34: the start bytes and the checksum field stand where they stood, and the sum does not see the order. -/
theorem permutedInteriorIsAccepted : Obligations.PermutedInteriorIsAccepted := by
  intro B P X hlength haccepted hperm
  obtain ⟨hsof, hsum, -⟩ := validateAndStrip_eq_ok_iff.mp haccepted
  have hX : X.length = 28 := by rw [hperm.length_eq]; simp [slice, hlength]
  have hstart : slice B 0 2 = [byteAt B 0, byteAt B 1] := slice_two (by omega)
  have hfield : slice B 30 32 = [byteAt B 30, byteAt B 31] := slice_two (by omega)
  have hsummed : slice B 0 30 = byteAt B 0 :: byteAt B 1 :: slice B 2 30 := by
    rw [slice_eq_cons (by decide) (by omega), slice_eq_cons (by decide) (by omega)]
  obtain ⟨hthirty, hthirtyone⟩ := byteAt_frame_checksum (b0 := byteAt B 0) (b1 := byteAt B 1) (b30 := byteAt B 30)
    (b31 := byteAt B 31) hX
  rw [hstart, hfield]
  change validateAndStrip (byteAt B 0 :: byteAt B 1 :: (X ++ [byteAt B 30, byteAt B 31])) = _
  refine validateAndStrip_eq_ok_iff.mpr ⟨hsof, ?sum, slice_frame_payload hX⟩
  calc computed (byteAt B 0 :: byteAt B 1 :: (X ++ [byteAt B 30, byteAt B 31]))
    _ = sum16 (byteAt B 0 :: byteAt B 1 :: X) := by rw [computed, msumLen, slice_frame_summed hX]
    _ = sum16 (byteAt B 0 :: byteAt B 1 :: slice B 2 30) := sum16_perm ((hperm.cons _).cons _)
    _ = received B := by rw [← hsummed]; exact hsum
    _ = _ := by rw [received, received, hthirty, hthirtyone]

end Sys2Proof.Machine
end

