-- ==== Sys2Proof/Proofs/Judged.lean ====
section
/-! PROOF. The block after `LOADFRAME` and `VALIDATE` (30_encoding.md R78, 44_validate.md R132): one state, whoever
issues the accesses, and each piece of it. -/

namespace Sys2Proof.Machine

open Sys2Proof.Safety

/-- The block after `B` was loaded and validated; `validateBuffer_loadBytes` ties it to the operations. -/
def judged (B : List Byte) (s : State) : State := takeStripped (validateAndStrip B) (loadBytes B s)

section Judged

variable {B : List Byte}

theorem validateBuffer_loadBytes (h : B.length = 32) (s : State) : validateBuffer (loadBytes B s) = judged B s := by
  obtain ⟨hfull, hbytes⟩ := loadBytes_full h s
  rw [validateBuffer_of_full hfull, hbytes, judged]

/-- `LOADFRAME` writes the buffer, the count, `RESULT` and `RXOVR`. -/
theorem loadBytes_frame (h : B.length = 32) (s : State) :
    (∀ off, rxByte (loadBytes B s) off = if off < 32 then byteAt B off else rxByte s off) ∧
      (loadBytes B s).rxovr = false ∧ (loadBytes B s).fvalid = s.fvalid ∧ (loadBytes B s).fields = s.fields ∧
      TxSame s (loadBytes B s) ∧ StickySame s (loadBytes B s) := by
  have hempty : (clearRx s).rxcnt.toNat = 0 := rfl
  obtain ⟨-, hbytes, -, hfvalid, hfields, hovr, htxop, htxarg, htxvalid, hillcmd, hbadacc, -, -⟩ :=
    pushAll_spec B (clearRx s) (by omega)
  refine ⟨fun off => (hbytes off).trans ?_, hovr, hfvalid, hfields, ⟨htxop, htxarg, htxvalid⟩, ⟨hillcmd, hbadacc⟩⟩
  rw [hempty, h, Nat.sub_zero, Nat.zero_add]
  simp

/-- Whatever the outcome, the frame is in the buffer, the count is 32, and the transmit side and the sticky flags are as
they were. -/
theorem judged_frame (h : B.length = 32) (s : State) :
    (∀ off, rxByte (judged B s) off = if off < 32 then byteAt B off else rxByte s off) ∧
      (judged B s).rxcnt = 32#6 ∧ (judged B s).rxovr = false ∧ TxSame s (judged B s) ∧ StickySame s (judged B s) := by
  obtain ⟨hfull, -⟩ := loadBytes_full h s
  obtain ⟨hbytes, hovr, -, -, ⟨htxop, htxarg, htxvalid⟩, hillcmd, hbadacc⟩ := loadBytes_frame h s
  rw [← validateBuffer_loadBytes h]
  obtain ⟨hbuffer, hcount', hovr', ⟨htxop', htxarg', htxvalid'⟩, ⟨hillcmd', hbadacc'⟩, -⟩ :=
    validateBuffer_frame (loadBytes B s)
  exact ⟨fun off => (hbuffer off).trans (hbytes off), hcount'.trans hfull, hovr'.trans hovr,
    ⟨htxop'.trans htxop, htxarg'.trans htxarg, htxvalid'.trans htxvalid⟩, hillcmd'.trans hillcmd,
    hbadacc'.trans hbadacc⟩

theorem judged_result (s : State) : (judged B s).result = Result.ofStripped (validateAndStrip B) := by
  rw [judged]
  obtain P | (_ | _) := validateAndStrip B <;> rfl

/-- An accepted frame gives its Measurement (R134). -/
theorem judged_of_ok {P : List Byte} (h : validateAndStrip B = .ok P) (s : State) :
    (judged B s).fvalid = true ∧ (judged B s).fields = decodePayload P := by
  rw [judged, h]
  exact ⟨rfl, rfl⟩

/-- A rejected one leaves the Measurement that was there (R135). -/
theorem judged_of_err {e : ProtocolError} (hlength : B.length = 32) (h : validateAndStrip B = .err e) (s : State) :
    (judged B s).fvalid = s.fvalid ∧ (judged B s).fields = s.fields := by
  obtain ⟨-, -, hfvalid, hfields, -⟩ := loadBytes_frame hlength s
  rw [judged, h, takeStripped_err]
  exact ⟨hfvalid, hfields⟩

end Judged

end Sys2Proof.Machine
end

