-- ==== Sys2Proof/Proofs/FrameRows.lean ====
section
/-! PROOF. The wire-frame rows as runs (30_encoding.md R77, log 6): the accesses that a row leaves in the host's queue,
performed one a step, and what they return. -/

namespace Sys2Proof.Machine

open Sys2Proof.Safety

/-! ### Runs of pending operations -/

/-- The step that takes the first of several pending operations. -/
theorem step_accessesOf (i : Instr) (is : List Instr) (q : List HostEvent) (s : State) :
    step (State.withPending (accessesOf (i :: is) ++ q) s) = exec i (State.withPending (accessesOf is ++ q) s) :=
  step_issue rfl (decode_encode i)

/-- Reads return their values in order, and the state is as it was. -/
theorem runFor_reads {is : List Instr} (his : ∀ i ∈ is, i ∈ readOps) (q : List HostEvent) (v : Option U16)
    (s : State) :
    runFor is.length (State.withPending (accessesOf is ++ q) (State.returning v s)) =
      some (State.withPending q (State.returning (is.foldl (fun _ i => some (readValue i s)) v) s),
        is.map fun i => readValue i s) := by
  induction is generalizing v with
  | nil => rfl
  | cons i rest ih =>
    obtain ⟨hi, hrest⟩ := List.forall_mem_cons.mp his
    have hstep : step (State.withPending (accessesOf (i :: rest) ++ q) (State.returning v s)) =
        .next (State.withPending (accessesOf rest ++ q) (State.returning (some (readValue i s)) s)) := by
      rw [step_accessesOf, exec_eq_readValue hi, readValue_withPending_returning hi]
      rfl
    rw [List.length_cons, runFor_succ _ hstep, ih hrest]
    rfl

/-- Pushes return nothing, and the bytes are in the buffer. -/
theorem runFor_pushes (B : List Byte) (q : List HostEvent) (s : State) :
    runFor B.length (State.withPending (accessesOf (B.map .push) ++ q) (State.returning none s)) =
      some (State.withPending q (State.returning none (B.foldl (fun t b => pushByte b t) s)), []) := by
  induction B generalizing s with
  | nil => rfl
  | cons b rest ih =>
    have hstep : step (State.withPending (accessesOf ((b :: rest).map .push) ++ q) (State.returning none s)) =
        .next (State.withPending (accessesOf (rest.map .push) ++ q) (State.returning none (pushByte b s))) := by
      rw [List.map_cons, step_accessesOf, exec_push, pushByte_withPending_returning]
      rfl
    rw [List.length_cons, runFor_succ _ hstep, ih]
    rfl

/-! ### Command frames -/

theorem readValues_rdtx (s : State) : (rdtx.map fun i => readValue i s) = (txFrame s).map zext16 := rfl

/-- `RDTX` as a run: the outbound frame, byte by byte. -/
theorem runFor_rdtx (q : List HostEvent) (v : Option U16) (s : State) :
    ∃ w, runFor 7 (State.withPending (accessesOf rdtx ++ q) (State.returning v s)) =
      some (State.withPending q (State.returning w s), (txFrame s).map zext16) := by
  have hreads : ∀ i ∈ rdtx, i ∈ readOps := by decide
  exact ⟨_, (runFor_reads hreads q v s).trans (by rw [readValues_rdtx])⟩

/-- Settles O43: the row is its `ENC.*`, and the seven reads return the frame of the command it loaded. -/
theorem commandFrameRowsEncodeAndRead : Obligations.CommandFrameRowsEncodeAndRead := by
  intro a chk s i op hrow
  refine ⟨exec_of_cframeRow hrow s, fun rest hp => ?_⟩
  have hstep : step s = .next (emitCommand op a (State.withPending rest s)) :=
    (step_issue hp (decode_encode i)).trans (exec_of_cframeRow hrow _)
  obtain ⟨w, hreads⟩ := runFor_rdtx rest none (State.loadTx op a s)
  refine ⟨State.withPending rest (State.returning w (State.loadTx op a s)), ?_, rfl⟩
  rw [runFor_succ 7 hstep]
  change (runFor 7 (State.withPending (accessesOf rdtx ++ rest) (State.returning none (State.loadTx op a s)))).map _ = _
  rw [hreads]
  rfl

/-! ### Measurement frames -/

/-- The read of the outcome in a block `u`, with `q` in the queue: `STATUS` is returned, and on `OK` the reads of the
fields come before `q`. `readOutcome_withPending_returning` ties it to the step. -/
def outcomeRead (q : List HostEvent) (u : State) : State :=
  State.withPending ((if u.result = .ok then accessesOf rdfields else []) ++ q)
    (State.returning (some (statusWord u)) u)

/-- The read of the outcome looks neither at the value returned before nor at the queue. -/
theorem readOutcome_withPending_returning (q : List HostEvent) (v : Option U16) (u : State) :
    readOutcome (State.withPending q (State.returning v u)) = outcomeRead q u :=
  readOutcome_eq (State.withPending q (State.returning v u))

section OutcomeRead

variable (q : List HostEvent) (u : State)

@[simp] theorem outcomeRead_result : (outcomeRead q u).result = u.result := rfl
@[simp] theorem outcomeRead_fvalid : (outcomeRead q u).fvalid = u.fvalid := rfl
@[simp] theorem outcomeRead_fields : (outcomeRead q u).fields = u.fields := rfl

theorem statusWord_outcomeRead : statusWord (outcomeRead q u) = statusWord u := rfl

/-- Queue and returned value aside, the block is as it was after `VALIDATE`. -/
theorem outcomeRead_eq_with : outcomeRead q u = { State.returning none u with
    pending := (outcomeRead q u).pending, returned := (outcomeRead q u).returned } := rfl

theorem outcomeRead_pending_of_ne {u : State} (h : u.result ≠ .ok) : (outcomeRead q u).pending = q := by
  rw [outcomeRead, if_neg h]
  rfl

end OutcomeRead

theorem receptionOf_append (B : List Byte) (q : List HostEvent) :
    receptionOf B ++ q = accessesOf (B.map .push) ++ (accessesOf [.validate] ++ .readOutcome :: q) := by
  simp [receptionOf, accessesOf]

/-- The 34 steps after the `RXCLR` of a reception: the pushes, `VALIDATE`, and the read of `STATUS`, which alone
returns a value. -/
theorem runFor_reception {B : List Byte} (h : B.length = 32) (q : List HostEvent) (s : State) :
    runFor 34 (State.withPending (receptionOf B ++ q) (State.returning none (clearRx s))) =
      some (outcomeRead q (judged B s), [statusWord (judged B s)]) := by
  have hpush : runFor 32 (State.withPending (accessesOf (B.map .push) ++ (accessesOf [.validate] ++ .readOutcome :: q))
      (State.returning none (clearRx s))) =
      some (State.withPending (accessesOf [.validate] ++ .readOutcome :: q)
        (State.returning none (loadBytes B s)), []) :=
    h ▸ runFor_pushes B _ (clearRx s)
  have hvalidate : step (State.withPending (accessesOf [.validate] ++ .readOutcome :: q)
      (State.returning none (loadBytes B s))) =
      .next (State.withPending (.readOutcome :: q) (State.returning none (judged B s))) := by
    rw [step_accessesOf, exec_validate, validateBuffer_withPending_returning, validateBuffer_loadBytes h]
    rfl
  generalize judged B s = u at *
  have houtcome : step (State.withPending (.readOutcome :: q) (State.returning none u)) = .next (outcomeRead q u) :=
    (step_readOutcome rfl).trans (congrArg Host.Outcome.next (readOutcome_withPending_returning q none u))
  rw [receptionOf_append, show 34 = 32 + 2 by rfl, runFor_add, hpush, Option.bind_some, runFor_succ 1 hvalidate,
    runFor_succ 0 houtcome]
  rfl

theorem readValues_rdfields (s : State) : (rdfields.map fun i => readValue i s) = s.fields.toList := rfl

/-- `RDFIELDS` as a run: the field bank in frame order, and the last field stays as the returned value. -/
theorem runFor_rdfields (q : List HostEvent) (v : Option U16) (s : State) :
    runFor 12 (State.withPending (accessesOf rdfields ++ q) (State.returning v s)) =
      some (State.withPending q (State.returning (some s.fields.f11) s), s.fields.toList) := by
  have hreads : ∀ i ∈ rdfields, i ∈ readOps := by decide
  exact (runFor_reads hreads q v s).trans (by rw [readValues_rdfields]; rfl)

theorem exec_mframe (len : U16) (m : Measurement) (trailer chk : U16) (s : State) :
    exec (.mframe len m trailer chk) s = .next (receiveFrame (mframeBytes len m trailer chk) s) := rfl

/-- A frame whose start bytes are in place is accepted exactly if its checksum field is the sum. -/
theorem validateAndStrip_mframeBytes (len : U16) (m : Measurement) (trailer chk : U16) :
    validateAndStrip (mframeBytes len m trailer chk) =
      if (Instr.mframe len m trailer chk).wellFormed = true then .ok (payloadBytes m) else .err .checksumMismatch := by
  have hwf : (Instr.mframe len m trailer chk).wellFormed = true ↔ chk = sum16 (mframeBody len m trailer) := beq_iff_eq
  have hsof : sofOk (byteAt (mframeBytes len m trailer chk) 0) (byteAt (mframeBytes len m trailer chk) 1) = true := rfl
  split
  case isTrue h => rw [hwf.mp h]; exact validateAndStrip_referenceFrame len m trailer
  case isFalse h =>
    refine validateAndStrip_of_computed_ne hsof fun heq => h (hwf.mpr ?_)
    rw [← computed_mframeBytes len m trailer chk, heq, received_mframeBytes]

/-- The 35 steps of a measurement-frame row, from the row itself to the read of its outcome. -/
theorem runFor_mframe {len : U16} {m : Measurement} {trailer chk : U16} {s : State} {rest : List HostEvent}
    (hp : s.pending = .issue (encode (.mframe len m trailer chk)) :: rest) :
    runFor 35 s = some (outcomeRead rest (judged (mframeBytes len m trailer chk) s),
      [statusWord (judged (mframeBytes len m trailer chk) s)]) := by
  have hstep : step s = .next (State.withPending (receptionOf (mframeBytes len m trailer chk) ++ rest)
      (State.returning none (clearRx s))) := (step_issue hp (decode_encode _)).trans (exec_mframe len m trailer chk _)
  rw [runFor_succ 34 hstep, runFor_reception (length_mframeBytes ..)]
  rfl

/-- After `OK` the host's next twelve steps read the fields. -/
theorem runFor_outcomeRead_of_ok {u : State} (h : u.result = .ok) (q : List HostEvent) :
    runFor 12 (outcomeRead q u) =
      some ({ outcomeRead q u with pending := q, returned := some u.fields.f11 }, u.fields.toList) := by
  rw [outcomeRead, if_pos h, runFor_rdfields]
  rfl

/-! ### The same accesses as operations -/

theorem pushByte_returning (b : Byte) (v : Option U16) (s : State) :
    pushByte b (State.returning v s) = State.returning v (pushByte b s) := by
  by_cases hroom : s.rxcnt.toNat < 32
  · rw [pushByte_of_lt b hroom, pushByte_of_lt (s := State.returning v s) b hroom]
    rfl
  · have hfull : 32 ≤ s.rxcnt.toNat := Nat.not_lt.mp hroom
    rw [pushByte_of_le b hfull, pushByte_of_le (s := State.returning v s) b hfull]
    rfl

theorem foldl_pushByte_returning (B : List Byte) (v : Option U16) (s : State) :
    B.foldl (fun t b => pushByte b t) (State.returning v s) =
      State.returning v (B.foldl (fun t b => pushByte b t) s) := by
  induction B generalizing s with
  | nil => rfl
  | cons b rest ih => rw [List.foldl_cons, pushByte_returning, ih, List.foldl_cons]

theorem takeStripped_returning (r : Stripped) (v : Option U16) (s : State) :
    takeStripped r (State.returning v s) = State.returning v (takeStripped r s) := by
  obtain P | (_ | _) := r <;> rfl

/-- What was returned before makes no difference to the judged block. -/
theorem judged_returning (B : List Byte) (v : Option U16) (s : State) :
    judged B (State.returning v s) = State.returning v (judged B s) := by
  have hload : loadBytes B (State.returning v s) = State.returning v (loadBytes B s) :=
    foldl_pushByte_returning B v (clearRx s)
  rw [judged, hload, takeStripped_returning, judged]

theorem performAll_loadFrame_validate_judged {B : List Byte} (h : B.length = 32) (s : State) :
    performAll (loadFrame B ++ [.validate]) s = .next (State.returning none (judged B s)) := by
  rw [performAll_loadFrame_validate h, ← judged, judged_returning]
  rfl

/-! ### The statement -/

/-- What a reception leaves in the block, whatever its outcome: what the operations leave. -/
theorem outcomeRead_judged_frame {B : List Byte} (h : B.length = 32) (q : List HostEvent) (s : State) :
    ∃ u, performAll (loadFrame B ++ [.validate]) s = .next u ∧
      outcomeRead q (judged B s) = { u with
        pending := (outcomeRead q (judged B s)).pending, returned := (outcomeRead q (judged B s)).returned } ∧
      (∀ off, rxByte (outcomeRead q (judged B s)) off = if off < 32 then byteAt B off else rxByte s off) ∧
      (outcomeRead q (judged B s)).rxcnt = 32#6 ∧ (outcomeRead q (judged B s)).rxovr = false ∧
      TxSame s (outcomeRead q (judged B s)) ∧ StickySame s (outcomeRead q (judged B s)) := by
  have hperform := performAll_loadFrame_validate_judged h s
  have hframe := judged_frame h s
  generalize judged B s = u at *
  exact ⟨_, hperform, outcomeRead_eq_with q u, hframe⟩

/-- An accepted reception, and the twelve reads that follow it. -/
theorem outcomeRead_judged_of_ok {B P : List Byte} (h : validateAndStrip B = .ok P) (q : List HostEvent) (s : State) :
    (outcomeRead q (judged B s)).result = .ok ∧ (outcomeRead q (judged B s)).fvalid = true ∧
      (outcomeRead q (judged B s)).fields = decodePayload P ∧
      runFor 12 (outcomeRead q (judged B s)) =
        some ({ outcomeRead q (judged B s) with pending := q, returned := some (decodePayload P).f11 },
          (decodePayload P).toList) := by
  have hresult : (judged B s).result = .ok := (judged_result s).trans (congrArg Result.ofStripped h)
  obtain ⟨hfvalid, hfields⟩ := judged_of_ok h s
  rw [runFor_outcomeRead_of_ok hresult, outcomeRead_result, outcomeRead_fvalid, outcomeRead_fields, hfields]
  exact ⟨hresult, hfvalid, rfl, rfl⟩

/-- A rejected reception, after which the host goes on with the rest of its queue. -/
theorem outcomeRead_judged_of_err {B : List Byte} {e : ProtocolError} (hlength : B.length = 32)
    (h : validateAndStrip B = .err e) (q : List HostEvent) (s : State) :
    (outcomeRead q (judged B s)).result = Result.ofStripped (.err e) ∧
      (outcomeRead q (judged B s)).fvalid = s.fvalid ∧ (outcomeRead q (judged B s)).fields = s.fields ∧
      (outcomeRead q (judged B s)).pending = q := by
  have hresult : (judged B s).result = Result.ofStripped (.err e) :=
    (judged_result s).trans (congrArg Result.ofStripped h)
  have hfailed : Result.ofStripped (.err e) ≠ .ok := by cases e <;> decide
  obtain ⟨hfvalid, hfields⟩ := judged_of_err hlength h s
  rw [outcomeRead_result, outcomeRead_fvalid, outcomeRead_fields]
  exact ⟨hresult, hfvalid, hfields, outcomeRead_pending_of_ne q (hresult ▸ hfailed)⟩

/-- Settles O44: the run ends with the outcome read in the judged block, and the outcome is that of the frame's checksum
field. -/
theorem measurementFrameRowLoadsAndValidates : Obligations.MeasurementFrameRowLoadsAndValidates := by
  intro len m trailer chk s
  refine ⟨exec_mframe len m trailer chk s, fun rest hp => ?_⟩
  have hrun := runFor_mframe hp
  rw [← statusWord_outcomeRead rest] at hrun
  have hlength := length_mframeBytes len m trailer chk
  obtain ⟨u, hperform, hstate, hbytes, hcount, hovr, htx, hsticky⟩ := outcomeRead_judged_frame hlength rest s
  refine ⟨_, u, hrun, hperform, hstate, hbytes, hcount, hovr, htx, hsticky, ?_⟩
  have hverdict := validateAndStrip_mframeBytes len m trailer chk
  split
  case isTrue h =>
    rw [if_pos h] at hverdict
    obtain ⟨hresult, hfvalid, hfields, hreads⟩ := outcomeRead_judged_of_ok hverdict rest s
    rw [decodePayload_payloadBytes] at hfields hreads
    refine ⟨hresult, hfvalid, hfields, ?_⟩
    rw [show 47 = 35 + 12 by rfl, runFor_add, hrun, Option.bind_some, hreads]
    rfl
  case isFalse h =>
    rw [if_neg h] at hverdict
    exact outcomeRead_judged_of_err hlength hverdict rest s

end Sys2Proof.Machine
end

