-- ==== Sys2Proof/Proofs/HostCalls.lean ====
section
/-! PROOF. The host software over the block (46_host_software.md): the frames it makes, the thirty-two bytes it loads
and judges (R165), what `read_once` ends in and leaves (R165, R169), and the mode property (R161 to R164). -/

namespace Sys2Proof.Machine

open Sys2Proof.Safety

/-! ### A command frame (R161, R162) -/

theorem map_lo8_map_zext16 (B : List Byte) : (B.map zext16).map lo8 = B := by
  rw [List.map_map]
  exact List.map_id'' lo8_zext16 B

/-- What the host sends for a legal opcode is `encode_command`, and the block keeps the command. -/
theorem hostCommand_eq {op : Byte} (hop : op = opChangeMode ∨ op = opRequestRead ∨ op = opSetSleep) (a : Byte)
    (s : State) : hostCommand op a s = (State.loadTx op a s, encodeCommand op a) := by
  have hwrite : regWrite idxTxreq (op ++ a) s = State.loadTx op a s := regWrite_txreq hop a s
  have hframe : txFrame (State.loadTx op a s) = encodeCommand op a := rfl
  rw [hostCommand, hwrite, regReads_txbyteIndices, hframe, map_lo8_map_zext16]

/-- The request of `read_once` (R165). -/
theorem hostCommand_requestRead (s : State) : hostCommand opRequestRead 0x00#8 s =
    (State.loadTx opRequestRead 0x00#8 s, encodeCommand opRequestRead 0x00#8) :=
  hostCommand_eq (.inr (.inl rfl)) 0x00#8 s

/-! ### Load and judge (R165) -/

theorem hostLoad_eq (B : List Byte) (s : State) : hostLoad B s = loadBytes B s := by
  have hclear : regWrite idxCmd (zext16 codeRxclr) s = clearRx s := by
    rw [regWrite, if_pos rfl, lo8_zext16, if_pos rfl]
  have hpush : (fun (t : State) b => regWrite idxRxdata (zext16 b) t) = fun t b => pushByte b t := by
    funext t b
    rw [regWrite_rxdata, lo8_zext16]
  rw [hostLoad, hclear, hpush, loadBytes]

/-- What the host's accesses leave is what the operations leave. -/
theorem hostJudge_eq (B : Vector Byte 32) (s : State) : hostJudge B s = judged B.toList s := by
  have hcode : codeValidate ≠ codeRxclr := by decide
  have hvalidate (t : State) : regWrite idxCmd (zext16 codeValidate) t = validateBuffer t := by
    rw [regWrite, if_pos rfl, lo8_zext16, if_neg hcode, if_pos rfl]
  rw [hostJudge, hvalidate, hostLoad_eq, validateBuffer_loadBytes B.length_toList]

/-- Settles O53: the block is the judged one, whose `RESULT` is an outcome of `validate_and_strip`. -/
theorem thirtyTwoBytesAreJudged : Obligations.ThirtyTwoBytesAreJudged := by
  intro B s
  obtain ⟨-, hcount, hovr, -⟩ := judged_frame B.length_toList s
  have hcode : outcomeCode (regRead 0x01#6 (judged B.toList s)).2 =
      (Result.ofStripped (validateAndStrip B.toList)).code :=
    (outcomeCode_statusWord _).trans (congrArg Result.code (judged_result s))
  rw [hostJudge_eq, hcode]
  refine ⟨hcount, hovr, ?_⟩
  obtain P | (_ | _) := validateAndStrip B.toList
  · exact .inl rfl
  · exact .inr (.inl rfl)
  · exact .inr (.inr rfl)

/-! ### The end of `read_once` (R165, R170) -/

/-- The Driver's error for each protocol error (R170). -/
def DriverError.ofProtocol : ProtocolError → DriverError
  | .startByteMismatch => .startByteMismatch
  | .checksumMismatch => .checksumMismatch

theorem Measurement.ofFn_getD_toList (m : Measurement) :
    (Measurement.ofFn fun k => m.toList.getD k.val 0#16) = m := rfl

section Decode

variable {B : Vector Byte 32} (request : List Byte) (d : Driver) (s : State)

/-- An accepted frame is measured, and its Measurement stored. -/
theorem readOnceDecode_of_ok {P : List Byte} (h : validateAndStrip B.toList = .ok P) :
    readOnceDecode B request d s =
      { driver := { d with stored := some (decodePayload P) }, block := judged B.toList s, request := request
        result := .measured (decodePayload P) } := by
  obtain ⟨-, hfields⟩ := judged_of_ok h s
  have hresult : (judged B.toList s).result = .ok := (judged_result s).trans (congrArg Result.ofStripped h)
  simp only [readOnceDecode, hostJudge_eq, regRead_status, regReads_fieldIndices, outcomeCode_statusWord, hresult,
    Measurement.ofFn_getD_toList, hfields, if_true]

/-- A rejected one is the error of its outcome, and the Driver is as it was. -/
theorem readOnceDecode_of_err {e : ProtocolError} (h : validateAndStrip B.toList = .err e) :
    readOnceDecode B request d s =
      { driver := d, block := judged B.toList s, request := request, result := .error (DriverError.ofProtocol e) } := by
  have hresult : (judged B.toList s).result = Result.ofStripped (.err e) :=
    (judged_result s).trans (congrArg Result.ofStripped h)
  simp only [readOnceDecode, hostJudge_eq, regRead_status, outcomeCode_statusWord, hresult]
  cases e <;> rfl

end Decode

/-! ### `read_once` when the transport does its part (R165) -/

/-- The request goes out in passive mode only; the reception follows, in the block that the request leaves. -/
theorem readOnce_done (d : Driver) (s : State) (B : Vector Byte 32) :
    ∃ u, readOnce (.done ()) (.done ()) (.done B) d s = readOnceDecode B
      (if d.ctl.mode = .passive then [0x42#8, 0x4D#8, 0xE2#8, 0x00#8, 0x00#8, 0x01#8, 0x71#8] else []) d u := by
  have hframe : encodeCommand opRequestRead 0x00#8 = [0x42#8, 0x4D#8, 0xE2#8, 0x00#8, 0x00#8, 0x01#8, 0x71#8] := by
    decide
  cases hmode : d.ctl.mode with
  | active =>
    refine ⟨s, ?_⟩
    rw [readOnce, needsExplicitRequest, hmode]
    rfl
  | passive =>
    refine ⟨State.loadTx opRequestRead 0x00#8 s, ?_⟩
    rw [readOnce, needsExplicitRequest, hmode, hostCommand_requestRead, hframe]
    rfl

/-- Settles O54: after the request the end of `read_once` is that of `validate_and_strip`. -/
theorem readOnceFollowsValidateAndStrip : Obligations.ReadOnceFollowsValidateAndStrip := by
  intro d s B
  obtain ⟨u, hread⟩ := readOnce_done d s B
  rw [hread]
  cases h : validateAndStrip B.toList with
  | ok P =>
    obtain ⟨hfvalid, hfields⟩ := judged_of_ok h u
    rw [readOnceDecode_of_ok _ _ _ h]
    exact ⟨rfl, rfl, rfl, rfl, hfvalid, hfields⟩
  | err e =>
    rw [readOnceDecode_of_err _ _ _ h]
    cases e <;> exact ⟨rfl, rfl, rfl, rfl⟩

/-! ### `read_once` however the transport's calls end (R169) -/

/-- What an error leaves: the Driver, the field bank and `FVALID`. -/
def MeasurementKept (d : Driver) (s : State) (r : ReadOnce) : Prop :=
  r.driver = d ∧ r.block.fields = s.fields ∧ r.block.fvalid = s.fvalid

theorem readOnceDecode_error {B : Vector Byte 32} {request : List Byte} {d : Driver} {s : State} {e : DriverError}
    (h : (readOnceDecode B request d s).result = .error e) : MeasurementKept d s (readOnceDecode B request d s) := by
  cases hv : validateAndStrip B.toList with
  | ok P =>
    rw [readOnceDecode_of_ok _ _ _ hv] at h
    cases h
  | err e' =>
    obtain ⟨hfvalid, hfields⟩ := judged_of_err B.length_toList hv s
    rw [readOnceDecode_of_err _ _ _ hv]
    exact ⟨rfl, hfields, hfvalid⟩

theorem readOnceReceive_error {wait : TransportCall Unit} {read : TransportCall (Vector Byte 32)}
    {request : List Byte} {d : Driver} {s : State} {e : DriverError}
    (h : (readOnceReceive wait read request d s).result = .error e) :
    MeasurementKept d s (readOnceReceive wait read request d s) := by
  cases wait with
  | timedOut | failed => exact ⟨rfl, rfl, rfl⟩
  | done =>
    cases read with
    | timedOut | failed => exact ⟨rfl, rfl, rfl⟩
    | done B => exact readOnceDecode_error h

/-- Settles O55: the request writes neither the field bank nor `FVALID`, and each later error keeps them. -/
theorem failedReadOnceKeepsTheMeasurement : Obligations.FailedReadOnceKeepsTheMeasurement := by
  intro write wait read d s e h
  change MeasurementKept d s (readOnce write wait read d s)
  unfold readOnce at h ⊢
  rw [hostCommand_requestRead] at h ⊢
  cases hneeded : needsExplicitRequest d.ctl with
  | false =>
    rw [hneeded] at h
    exact readOnceReceive_error h
  | true =>
    rw [hneeded] at h
    cases write with
    | timedOut | failed => exact ⟨rfl, rfl, rfl⟩
    | done =>
      have hkept : MeasurementKept d (State.loadTx opRequestRead 0x00#8 s) _ := readOnceReceive_error h
      exact hkept

/-! ### What `read_once` never touches of the Driver (R164) -/

theorem readOnceReceive_driver (wait : TransportCall Unit) (read : TransportCall (Vector Byte 32))
    (request : List Byte) (d : Driver) (s : State) :
    ∃ m, (readOnceReceive wait read request d s).driver = { d with stored := m } := by
  cases wait with
  | timedOut | failed => exact ⟨d.stored, rfl⟩
  | done =>
    cases read with
    | timedOut | failed => exact ⟨d.stored, rfl⟩
    | done B =>
      change ∃ m, (readOnceDecode B request d s).driver = { d with stored := m }
      cases h : validateAndStrip B.toList with
      | ok P => exact ⟨some (decodePayload P), by rw [readOnceDecode_of_ok _ _ _ h]⟩
      | err e => exact ⟨d.stored, by rw [readOnceDecode_of_err _ _ _ h]⟩

/-- `read_once` changes at most the stored Measurement. -/
theorem readOnce_driver (write wait : TransportCall Unit) (read : TransportCall (Vector Byte 32)) (d : Driver)
    (s : State) : ∃ m, (readOnce write wait read d s).driver = { d with stored := m } := by
  rw [readOnce]
  cases needsExplicitRequest d.ctl with
  | false => exact readOnceReceive_driver wait read [] d s
  | true =>
    cases write with
    | timedOut | failed => exact ⟨d.stored, rfl⟩
    | done => exact readOnceReceive_driver wait read _ d _

/-- Settles O56: each setter writes its own bit and sends `encode_command`; `read_once` writes neither. -/
theorem modeStatePersists : Obligations.ModeStatePersists := by
  have hmode (passive : Bool) (c : ModeController) (s : State) : (setMode passive c s).2.2 =
      encodeCommand opChangeMode (if passive then 0x00#8 else 0x01#8) := by
    rw [setMode, hostCommand_eq (.inl rfl)]
  have hsleep (asleep : Bool) (c : ModeController) (s : State) : (setSleep asleep c s).2.2 =
      encodeCommand opSetSleep (if asleep then 0x00#8 else 0x01#8) := by
    rw [setSleep, hostCommand_eq (.inr (.inr rfl))]
  refine ⟨fun c s => ?setters, fun write wait read d s => ?read⟩
  case setters =>
    rw [hmode, hmode, hsleep, hsleep]
    exact ⟨rfl, rfl, fun _ => rfl, fun _ => rfl, by decide, by decide, by decide, by decide⟩
  case read =>
    obtain ⟨m, hdriver⟩ := readOnce_driver write wait read d s
    rw [hdriver]

end Sys2Proof.Machine
end

