-- ==== Sys2Proof/Proofs/TransportOwnership.lean ====
section
/-! PROOF. The transport (46_host_software.md R159, R172; bookkeeping of log 15): who owns it, that no call gives it
away, and that teardown releases it. -/

namespace Sys2Proof.Machine

/-! ### Acquisition and teardown -/

/-- Acquisition succeeds exactly for a host without a Driver and a free transport, and says what is left. -/
theorem acquire_eq_some_iff {tr : Transport} {h g : HostState} :
    h.acquire tr = some g ↔ (h.driver = none ∧ tr ∈ h.free) ∧
      g = { free := h.free.filter fun x => decide (x ≠ tr), driver := some (Driver.initial tr) } := by
  rw [HostState.acquire]
  split
  case isTrue hfree => rw [Option.some.injEq, and_iff_right hfree, eq_comm]
  case isFalse hfree => simp only [hfree, false_and, reduceCtorEq]

/-- One Driver at a time (R172). -/
theorem acquire_of_driver {h : HostState} {d : Driver} (hd : h.driver = some d) (tr : Transport) :
    h.acquire tr = none := by
  rw [HostState.acquire, if_neg]
  rintro ⟨hnone, -⟩
  cases hd.symm.trans hnone

theorem teardown_of_driver {h : HostState} {d : Driver} (hd : h.driver = some d) :
    h.teardown = { free := d.transport :: h.free, driver := none } := by
  rw [HostState.teardown, hd]

/-- A transport taken out of the free ones and put back. -/
theorem mem_cons_filter_ne_iff {free : List Transport} {tr : Transport} (h : tr ∈ free) (x : Transport) :
    x ∈ tr :: free.filter (fun y => decide (y ≠ tr)) ↔ x ∈ free := by
  by_cases hx : x = tr
  · simp [hx, h]
  · simp [hx]

/-! ### Calls -/

theorem call_transport (c : DriverCall) (d : Driver) (s : State) : (d.call c s).1.transport = d.transport := by
  cases c with
  | readOnce write wait read =>
    obtain ⟨m, hdriver⟩ := readOnce_driver write wait read d s
    change (Machine.readOnce write wait read d s).driver.transport = d.transport
    rw [hdriver]
  | sendMode | sendSleep => rfl

theorem calls_transport (cs : List DriverCall) (d : Driver) (s : State) :
    (Driver.calls cs d s).1.transport = d.transport := by
  induction cs generalizing d s with
  | nil => rfl
  | cons c rest ih => exact (ih _ _).trans (call_transport c d s)

theorem length_calls (cs : List DriverCall) (d : Driver) (s : State) :
    (Driver.calls cs d s).2.2.length = cs.length := by
  induction cs generalizing d s with
  | nil => rfl
  | cons c rest ih => exact congrArg Nat.succ (ih _ _)

/-! ### A session -/

/-- A session that can acquire its transport runs all its calls and gives the transport back. -/
theorem session_releases {tr : Transport} {h : HostState} (hnone : h.driver = none) (hfree : tr ∈ h.free)
    (cs : List DriverCall) (s : State) :
    ∃ g u ends, session tr cs h s = some (g, u, ends) ∧ g.driver = none ∧ (∀ x, x ∈ g.free ↔ x ∈ h.free) ∧
      ends.length = cs.length := by
  have hacquire := acquire_eq_some_iff.mpr ⟨⟨hnone, hfree⟩, rfl⟩
  refine ⟨_, _, _, by rw [session, hacquire], rfl, fun x => ?_, length_calls cs _ s⟩
  rw [teardown_of_driver rfl, calls_transport]
  exact mem_cons_filter_ne_iff hfree x

/-- Settles O57: the four laws above, of acquisition, calls, teardown and sessions. -/
theorem transportIsOwnedAndReleased : Obligations.TransportIsOwnedAndReleased := by
  refine ⟨fun tr h g hacquire => ?acquire, call_transport, fun h d hd => ?teardown,
    fun tr cs h s hnone hfree => session_releases hnone hfree cs s⟩
  case acquire =>
    obtain ⟨⟨hnone, hfree⟩, rfl⟩ := acquire_eq_some_iff.mp hacquire
    exact ⟨hnone, hfree, rfl, by simp, fun x hx => by simp [hx], acquire_of_driver rfl⟩
  case teardown =>
    rw [teardown_of_driver hd]
    exact ⟨rfl, List.mem_cons_self⟩

end Sys2Proof.Machine
end
